-- ==== Sys2Proof/Word.lean ====
section
/-! DEFINITION. The two word types of the framer core: a byte (00_scope.md §5, R10, R11) and the 16-bit
command word (30_encoding.md R47). Every sequence the block handles is a `List Byte` whose length is the
list's own (R12), index 0 first in stream order (20_memory.md R32). -/

namespace Sys2Proof

/-- A byte: an unsigned integer in `0..255` (00_scope.md §5). -/
abbrev Byte := BitVec 8

/-- A command word, bit 15 the most significant (30_encoding.md R47, 20_memory.md R33). -/
abbrev Word := BitVec 16

end Sys2Proof
end

