-- ==== Sys2Proof/Config.lean ====
section
/-! DEFINITION. The construction-time parameters of an instance (00_scope.md R6 to R9), and the one value
the spec leaves free (93_implementation_defined.md U2, U3). -/

namespace Sys2Proof

/-- `CODEC`: the codec an instance uses, fixed for its life (R6). -/
inductive Codec
  | cobs
  | slip
  deriving DecidableEq, Repr

/-- The parameters of one instance. The spec gives no value for the two sizes (R8, R9, D8): a model takes
them as arguments, so every statement quantifies over a `Config`. -/
structure Config where
  /-- `CODEC` (R6). -/
  codec : Codec
  /-- `RX_CAPACITY`, the number of bytes the receive buffer holds; `≥ 1` is `Config.wf` (R8, D28). -/
  rxCapacity : Nat
  /-- `MAX_PACKET_SIZE`, the longest packet SEND and ENCODE accept; `≥ 0` (R9). -/
  maxPacketSize : Nat
  deriving DecidableEq, Repr

/-- The parameters `Machine.State.reset` is built with. DESIGN CHOICE (log entry 1): the spec leaves them
open; these are those of programs P1 and P4 of 95_test_vectors.md. No statement rests on them. -/
def Config.chosen : Config := { codec := .cobs, rxCapacity := 8, maxPacketSize := 8 }

/-- FREE VALUE (log entry 2): what byte `i` of the receive buffer holds from power-on until something
writes it. The spec says `any value` (U2, U3, R18, R123), so it has no body here. -/
opaque Config.rxBufInit : Nat → Byte

end Sys2Proof
end

