-- ==== Sys2Proof/Syntax.lean ====
section
/-! DEFINITION. The five commands of spec/opcode_table.json, the verdicts on a word that is no command,
the transaction that carries a command, the assembler lines of 30_encoding.md R57 and R58, and the names
of the decode errors and status codes (60_exceptions.md R107, R108). -/

namespace Sys2Proof

/-- A decoded command: one constructor for each row of spec/opcode_table.json. Only ACCEPT has an operand
in its word (R52); the sequence operand of SEND, ENCODE and DECODE is on the `din` port. -/
inductive Instr
  /-- `ACCEPT b`: one byte received from the transport (R85). -/
  | accept (b : Byte)
  /-- `SEND [p]`: encode the packet on `din`, emit it and the marker (R98). -/
  | send
  /-- `RESET`: the explicit reset of the receiver (R97). -/
  | reset
  /-- `ENCODE [p]`: the configured codec's encoder on `din` (R104). -/
  | encode
  /-- `DECODE [f]`: the configured codec's decoder on `din` (R105). -/
  | decode
  deriving DecidableEq, Repr

/-- Why a word is no command: the three groups of R54, in the order the decoder of R51 tests them. -/
inductive Illegal
  /-- `rsv ≠ 0` (R49). -/
  | reservedField
  /-- `op` is none of `0x1..0x5` (R48). -/
  | unknownOp
  /-- `op` is one of `0x2..0x5` and `imm8 ≠ 0` (R50). -/
  | operandNotZero
  deriving DecidableEq, Repr

/-- One transaction of the host on the two input ports (10_state.md R25): a word on `cmd` and a finite
sequence, with its length, on `din` (R26). -/
structure Command where
  cmd : Word
  din : List Byte
  deriving DecidableEq, Repr

/-- One line of the spec's assembler (R57), the pseudo-operation PUMP among them (R58). -/
inductive Asm
  | accept (b : Byte)
  | send (p : List Byte)
  | reset
  | encode (p : List Byte)
  | decode (f : List Byte)
  /-- `.word 0xNNNN`: any of the 65,536 words. -/
  | word (w : Word)
  /-- `PUMP [b0 b1 ...]`: one ACCEPT for each byte. -/
  | pump (bs : List Byte)
  deriving DecidableEq, Repr

/-- The errors a codec's decoder returns (00_scope.md §5, 60_exceptions.md R107). -/
inductive DecodeError
  | invalidLengthByte
  | truncated
  | invalidEscape
  deriving DecidableEq, Repr

/-- The names of the status codes (60_exceptions.md R108). Their bytes are `Status.code`. -/
inductive Status
  | ok
  | packetTooLarge
  | invalidLengthByte
  | truncated
  | invalidEscape
  | frameTooLarge
  | illegalCommand
  deriving DecidableEq, Repr

end Sys2Proof
end

