-- ==== Sys2Proof/WellFormed.lean ====
section
/-! DEFINITION. Which parameters and which commands are legal. -/

namespace Sys2Proof

/-- The constraint on the parameters: `RX_CAPACITY ≥ 1` (00_scope.md R8, D28). `MAX_PACKET_SIZE ≥ 0` and
`CODEC` in `COBS, SLIP` hold by their types (R6, R9). -/
def Config.wf (c : Config) : Bool := decide (1 ≤ c.rxCapacity)

/-- Every command is legal with every operand it can hold: "every value `0x00..0xFF` is legal" for
ACCEPT's byte (30_encoding.md R50), and the other commands hold no operand (R52). -/
def Instr.wf : Instr → Bool
  | .accept _ => true
  | .send => true
  | .reset => true
  | .encode => true
  | .decode => true

end Sys2Proof
end

