-- ==== Sys2Proof/Decode.lean ====
section
/-! DEFINITION. The command decoder (30_encoding.md R47 to R56), total on all 65,536 words and rejecting
by name; after it the encoder, the table-word decoder, the number of a codec (R6), and the assembler of
R57 and R58. -/

namespace Sys2Proof

/-- The field `op = cmd[15:12]` (R47). -/
def opField (w : Word) : BitVec 4 := w.extractLsb' 12 4

/-- The field `rsv = cmd[11:8]` (R47). -/
def rsvField (w : Word) : BitVec 4 := w.extractLsb' 8 4

/-- The field `imm8 = cmd[7:0]` (R47). -/
def immField (w : Word) : Byte := w.extractLsb' 0 8

/-- A command without an operand in its word: `imm8` must be `0x00` (R50). -/
def withoutOperand (w : Word) (i : Instr) : Except Illegal Instr :=
  if immField w = 0x00#8 then .ok i else .error .operandNotZero

/-- The decoder of R51: each word yields exactly one command, or is illegal for one named reason. -/
def decode (w : Word) : Except Illegal Instr :=
  if rsvField w ≠ 0x0#4 then .error .reservedField
  else if opField w = 0x1#4 then .ok (.accept (immField w))
  else if opField w = 0x2#4 then withoutOperand w .send
  else if opField w = 0x3#4 then withoutOperand w .reset
  else if opField w = 0x4#4 then withoutOperand w .encode
  else if opField w = 0x5#4 then withoutOperand w .decode
  else .error .unknownOp

/-- A word from its `op` and `imm8`, with `rsv = 0` (R47, R49). -/
def encodeFields (op : BitVec 4) (imm : Byte) : Word := op ++ 0x0#4 ++ imm

/-- The word of a command (R48, R50, R57). -/
def encode : Instr → Word
  | .accept b => encodeFields 0x1#4 b
  | .send => encodeFields 0x2#4 0x00#8
  | .reset => encodeFields 0x3#4 0x00#8
  | .encode => encodeFields 0x4#4 0x00#8
  | .decode => encodeFields 0x5#4 0x00#8

/-- The command word that the low `nbits` bits of `w` are, every higher bit 0. The command word is a
parallel port value and is never split into bytes (20_memory.md R33). -/
def tableWord (nbits w : Nat) : Word := BitVec.ofNat 16 (w % 2 ^ nbits)

/-- What the decoder reads from an instruction's bits, numbered as spec/opcode_table.json numbers them. -/
def decodeTableWord (nbits w : Nat) : Option Instr := (decode (tableWord nbits w)).toOption

/-- `CODEC` given as a number: COBS is 0 and SLIP is 1 (00_scope.md R6, D7). -/
def Codec.ofNumber : Nat → Option Codec
  | 0 => some .cobs
  | 1 => some .slip
  | _ => none

/-- The number of a codec (R6, D7). -/
def Codec.number : Codec → Nat
  | .cobs => 0
  | .slip => 1

/-- The transaction that issues a command with a sequence on `din`. -/
def commandOf (i : Instr) (din : List Byte) : Command := { cmd := encode i, din := din }

/-- The transactions an assembler line stands for (R57, R58): ACCEPT, RESET and `.word` put nothing on
`din`, and PUMP is one ACCEPT for each byte, in order. -/
def Asm.assemble : Asm → List Command
  | .accept b => [commandOf (.accept b) []]
  | .send p => [commandOf .send p]
  | .reset => [commandOf .reset []]
  | .encode p => [commandOf .encode p]
  | .decode f => [commandOf .decode f]
  | .word w => [{ cmd := w, din := [] }]
  | .pump bs => bs.map fun b => commandOf (.accept b) []

/-- An upper-case hexadecimal digit (the spec writes `0xNN` so, 00_scope.md §5). -/
def hexDigit (n : Nat) : Char :=
  ['0', '1', '2', '3', '4', '5', '6', '7', '8', '9', 'A', 'B', 'C', 'D', 'E', 'F'].getD n '0'

/-- The two hexadecimal digits of a byte. -/
def hexByte (b : Byte) : List Char := [hexDigit (b.toNat / 16), hexDigit (b.toNat % 16)]

/-- A sequence as bracketed hex pairs, `[p0 p1 ...]` (R57). -/
def hexSequence (p : List Byte) : List Char :=
  '[' :: ((p.map hexByte).intersperse [' ']).flatten ++ [']']

/-- The characters of an assembler line (R57). -/
def Asm.chars : Asm → List Char
  | .accept b => ['A', 'C', 'C', 'E', 'P', 'T', ' ', '0', 'x'] ++ hexByte b
  | .send p => ['S', 'E', 'N', 'D', ' '] ++ hexSequence p
  | .reset => ['R', 'E', 'S', 'E', 'T']
  | .encode p => ['E', 'N', 'C', 'O', 'D', 'E', ' '] ++ hexSequence p
  | .decode f => ['D', 'E', 'C', 'O', 'D', 'E', ' '] ++ hexSequence f
  | .word w => ['.', 'w', 'o', 'r', 'd', ' ', '0', 'x'] ++ hexByte (w.extractLsb' 8 8) ++
      hexByte (w.extractLsb' 0 8)
  | .pump bs => ['P', 'U', 'M', 'P', ' '] ++ hexSequence bs

/-- An assembler line printed (R57: the one syntax of "any model's printer"). -/
def Asm.print (a : Asm) : String := String.ofList a.chars

end Sys2Proof
end

