-- ==== Sys2Proof/Machine/Cobs.lean ====
section
/-! DEFINITION. The COBS codec (40_cobs.md), two functions that touch no state. -/

namespace Sys2Proof.Machine

open Sys2Proof

/-- The length of a full run: a run is emitted at once on reaching it (R60, R63). -/
def cobsRunLimit : Nat := 254

/-- One block of the frame: the length byte `len(run) + 1`, then the run (R60, R62). -/
def cobsBlock (run : List Byte) : List Byte := BitVec.ofNat 8 (run.length + 1) :: run

/-- The loop of R60 from the point where `run` is the run in progress: a zero ends it, 254 non-zero bytes
end it, and the final run, which may be empty, is always emitted (R63, D9). -/
def cobsEncodeFrom (run : List Byte) : List Byte → List Byte
  | [] => cobsBlock run
  | b :: p =>
    if b = 0x00#8 then cobsBlock run ++ cobsEncodeFrom [] p
    else if (run ++ [b]).length = cobsRunLimit then cobsBlock (run ++ [b]) ++ cobsEncodeFrom [] p
    else cobsEncodeFrom (run ++ [b]) p

/-- `cobs_encode(p)` (R60); the empty packet encodes to the empty frame (R61). -/
def cobsEncode (p : List Byte) : List Byte := if p = [] then [] else cobsEncodeFrom [] p

/-- `S` of R65: how many full 254-byte runs the encoder's loop flushes, from a point where the run in
progress holds `n` bytes. -/
def cobsFullRunsFrom (n : Nat) : List Byte → Nat
  | [] => 0
  | b :: p =>
    if b = 0x00#8 then cobsFullRunsFrom 0 p
    else if n + 1 = cobsRunLimit then 1 + cobsFullRunsFrom 0 p
    else cobsFullRunsFrom (n + 1) p

/-- `S` of R65 for a whole packet. -/
def cobsFullRuns (p : List Byte) : Nat := cobsFullRunsFrom 0 p

/-- The loop of R66 on the bytes that are left, for at most `fuel` blocks; every block takes at least its
length byte, so as much fuel as there are bytes is enough. A zero is put back after a block with `n < 255`
that more bytes follow (R69), and the first failing length byte decides the error (R74). -/
def cobsDecodeFrom : Nat → List Byte → Except DecodeError (List Byte)
  | 0, _ => .ok []
  | _ + 1, [] => .ok []
  | fuel + 1, n :: f =>
    if n = 0x00#8 then .error .invalidLengthByte
    else if f.length < n.toNat - 1 then .error .truncated
    else
      match cobsDecodeFrom fuel (f.drop (n.toNat - 1)) with
      | .error e => .error e
      | .ok out =>
        .ok (f.take (n.toNat - 1) ++
          (if n.toNat < 255 ∧ f.drop (n.toNat - 1) ≠ [] then [0x00] else []) ++ out)

/-- `cobs_decode(f)` (R66). -/
def cobsDecode (f : List Byte) : Except DecodeError (List Byte) := cobsDecodeFrom f.length f

end Sys2Proof.Machine
end

