-- ==== Sys2Proof/Machine/State.lean ====
section
/-! DEFINITION. The state of one instance (10_state.md R15 to R20, 00_scope.md R6 to R9), its ports
(R25), the reasons a step can stop, and the state after reset (70_reset_and_hazards.md R122, R123). -/

namespace Sys2Proof.Machine

open Sys2Proof

/-- The bytes of the receive buffer that something has written since power-on, by index, in one canonical
form: indices strictly rising. An index that is not listed has never been written. -/
abbrev Memory := List Host.Cell

/-- The canonical form of a `Memory`. Unlisted indices read as no value, so no entry can equal what an
unlisted one reads as. -/
abbrev Memory.wf (m : Memory) : Prop := m.Pairwise fun c d => c.1 < d.1

/-- The response record of one command (00_scope.md §5): the values on the four output ports (R25). A field
a rule does not mention has the value given here. -/
structure Response where
  /-- The byte on `status` (60_exceptions.md R108). -/
  status : Byte := 0x00
  /-- The bytes written to the transport, in order (R28). -/
  tx : List Byte := []
  /-- `pkt_out`: the packet dispatched, if any (R27). -/
  pkt : Option (List Byte) := none
  /-- The sequence on `dout`. -/
  data : List Byte := []
  deriving DecidableEq, Repr

/-- Why a step stops with a fault. -/
inductive Fault
  /-- Raised by `State.memRead` and `State.memWrite`, so by ACCEPT alone, for an index at or above
  `RX_CAPACITY`: the buffer has no such byte (10_state.md R18, 20_memory.md R36). It needs
  `rx_cursor > RX_CAPACITY`, which the invariant of R16 rules out, so no run from reset meets it.
  Safe: the model stops where the spec gives no meaning. -/
  | bufferIndexOutOfRange
  deriving DecidableEq, Repr

/-- Why a step is refused. -/
inductive Refusal
  /-- Raised by an arm of `exec` whose command has no meaning yet. No arm of this model raises it.
  Safe: nothing can be proved of a command that is refused. -/
  | notModelled (mnemonic : String)
  deriving DecidableEq, Repr

/-- The state of one instance, the values on its input ports, and the host's two records: what it has yet
to issue and what it was answered. -/
structure State where
  /-- The construction-time parameters (00_scope.md R6 to R9). No command changes them (R15, R124). -/
  cfg : Config
  /-- `rx_buf`: the bytes written so far (10_state.md R18). Read it through `State.rxByte`. -/
  rxBuf : Memory
  /-- `rx_cursor`: the write cursor, and the number of encoded bytes held (R16, R10). -/
  rxCursor : Nat
  /-- `rx_overflowed`: `false` is Accumulating, `true` is Overflowed (R17). -/
  rxOverflowed : Bool
  /-- The input port `cmd`: the word of the transaction in progress, else of the last one (R25). -/
  cmd : Word
  /-- The input port `din`: the sequence of the transaction in progress, else of the last one (R26). -/
  din : List Byte
  /-- The host's transactions still to come, next first (R22, R40). MODEL'S OWN (log entry 3). -/
  pending : List Command
  /-- The responses given so far, oldest first (R40). MODEL'S OWN (log entry 4): the host's record; no
  command reads it. -/
  responses : List Response
  deriving DecidableEq, Repr

/-- An instance with parameters `c` after its power-on or construction reset, before its first command
(R122, R123): at a boundary, nothing in the buffer written, the bus idle. -/
def State.resetWith (c : Config) : State :=
  { cfg := c
    rxBuf := []
    rxCursor := 0
    rxOverflowed := false
    cmd := 0x0000
    din := []
    pending := []
    responses := [] }

/-- The machine right after reset, with the parameters of log entry 1. -/
def State.reset : State := State.resetWith Config.chosen

end Sys2Proof.Machine
end

