-- ==== Sys2Proof/Machine/Ops.lean ====
section
/-! DEFINITION. The named operations: the two memory primitives of 00_scope.md §5 over the receive buffer,
giving a response, raising a status (this block's only "exception", R114), and taking the next transaction
from the host. -/

namespace Sys2Proof.Machine

open Sys2Proof

/-- The byte listed at an index, `none` where nothing was written. -/
def Memory.read : Memory → Nat → Option Byte
  | [], _ => none
  | c :: m, i => if c.1 = i then some c.2 else Memory.read m i

/-- Write one byte at an index, keeping the indices strictly rising. -/
def Memory.write : Memory → Nat → Byte → Memory
  | [], i, b => [(i, b)]
  | c :: m, i, b =>
    if i < c.1 then (i, b) :: c :: m
    else if c.1 = i then (i, b) :: m
    else c :: Memory.write m i b

/-- `rx_buf[i]`: what was last written there, or the unspecified value it has held since power-on
(10_state.md R18, U2, U3). -/
def State.rxByte (s : State) (i : Nat) : Byte := (s.rxBuf.read i).getD (Config.rxBufInit i)

/-- `rx_buf[0..n)`, index 0 first. -/
def State.rxBytes (s : State) (n : Nat) : List Byte := (List.range n).map s.rxByte

/-- `rx_frame`: the bytes of the frame in progress, in arrival order (10_state.md R18, R19). -/
def State.rxFrame (s : State) : List Byte := s.rxBytes s.rxCursor

/-- `MemRead(0, n)` (00_scope.md §5). The buffer has the indices `0..RX_CAPACITY-1` (R18). -/
def State.memRead (s : State) (n : Nat) : Except Fault (List Byte) :=
  if n ≤ s.cfg.rxCapacity then .ok (s.rxBytes n) else .error .bufferIndexOutOfRange

/-- `MemWrite(i, 1, b)` (00_scope.md §5): one byte, at an index below `RX_CAPACITY` (20_memory.md R36). -/
def State.memWrite (s : State) (i : Nat) (b : Byte) : Except Fault State :=
  if i < s.cfg.rxCapacity then .ok { s with rxBuf := s.rxBuf.write i b }
  else .error .bufferIndexOutOfRange

/-- Set `rx_cursor` (R16). -/
def State.setCursor (s : State) (n : Nat) : State := { s with rxCursor := n }

/-- Set `rx_overflowed` (R17). -/
def State.setOverflowed (s : State) (o : Bool) : State := { s with rxOverflowed := o }

/-- Give the command's one response (00_scope.md §5; 20_memory.md R40: responses come in command order). -/
def State.respond (s : State) (r : Response) : State := { s with responses := s.responses ++ [r] }

/-- Take the next transaction on `cmd` and `din` (R25), or `none` when the host has issued none. Whatever
was on the two ports before is gone (30_encoding.md R53: it is not kept for a later command). -/
def State.takeCommand (s : State) : Option State :=
  match s.pending with
  | [] => none
  | c :: rest => some { s with cmd := c.cmd, din := c.din, pending := rest }

/-- All bytes handed to the transport so far, in wire order (10_state.md R28, 20_memory.md R41). -/
def State.wire (s : State) : List Byte := s.responses.flatMap Response.tx

/-- The packets dispatched so far, in order (20_memory.md R42). -/
def State.dispatched (s : State) : List (List Byte) := s.responses.filterMap Response.pkt

end Sys2Proof.Machine
end

