-- ==== Sys2Proof/Machine/Flags.lean ====
section
/-! DEFINITION. The block has no condition flags. Its status is the byte each command answers with
(60_exceptions.md R108), and raising one is its whole error mechanism: no trap, vector or saved state
(R114), so there is no return from one either (R115). -/

namespace Sys2Proof

/-- The byte of a status (R108, D6). -/
def Status.code : Status → Byte
  | .ok => 0x00
  | .packetTooLarge => 0x01
  | .invalidLengthByte => 0x02
  | .truncated => 0x03
  | .invalidEscape => 0x04
  | .frameTooLarge => 0x05
  | .illegalCommand => 0x06

/-- The status DECODE reports a decode error with (44_codec_access.md R105). -/
def DecodeError.status : DecodeError → Status
  | .invalidLengthByte => .invalidLengthByte
  | .truncated => .truncated
  | .invalidEscape => .invalidEscape

namespace Machine

/-- `raise <Status>()` (00_scope.md §5): the command ends, its response carries the status, and it changes
no state and emits nothing (R109, R114). -/
def State.raiseStatus (s : State) (e : Status) : State := s.respond { status := e.code }

end Machine

end Sys2Proof
end

