-- ==== Sys2Proof/Machine/Slip.lean ====
section
/-! DEFINITION. The SLIP codec (41_slip.md), two functions that touch no state. -/

namespace Sys2Proof.Machine

open Sys2Proof

/-- `END`, the boundary marker (R75). -/
def slipEnd : Byte := 0xC0

/-- `ESC`, the byte an escape pair begins with (R75). -/
def slipEsc : Byte := 0xDB

/-- `ESC_END`: after ESC it stands for a literal END (R75). -/
def slipEscEnd : Byte := 0xDC

/-- `ESC_ESC`: after ESC it stands for a literal ESC (R75). -/
def slipEscEsc : Byte := 0xDD

/-- What the encoder writes for one byte (R76). -/
def slipEncodeByte (b : Byte) : List Byte :=
  if b = slipEnd then [slipEsc, slipEscEnd]
  else if b = slipEsc then [slipEsc, slipEscEsc]
  else [b]

/-- `slip_encode(p)` (R76): byte by byte, with no END of its own (R77). -/
def slipEncode (p : List Byte) : List Byte := p.flatMap slipEncodeByte

/-- The byte an escape pair stands for (R79, R80). -/
def slipUnescape (c : Byte) : Except DecodeError Byte :=
  if c = slipEscEnd then .ok slipEnd
  else if c = slipEscEsc then .ok slipEsc
  else .error .invalidEscape

/-- `slip_decode(f)` (R79): the first error in scan order decides (R84). -/
def slipDecode : List Byte → Except DecodeError (List Byte)
  | [] => .ok []
  | [b] => if b = slipEsc then .error .truncated else .ok [b]
  | b :: c :: f =>
    if b = slipEsc then
      match slipUnescape c with
      | .error e => .error e
      | .ok d => (slipDecode f).map (d :: ·)
    else (slipDecode (c :: f)).map (b :: ·)

end Sys2Proof.Machine
end

