-- ==== Sys2Proof/Machine/Operands.lean ====
section
/-! DEFINITION. The operands of the commands: the sequence on `din` (30_encoding.md R52) with its size
checks (R99, R104, R105), and the codec, the marker and the two codec functions the parameters select
(00_scope.md R6, R7). ACCEPT's byte is the argument of its constructor. -/

namespace Sys2Proof

/-- `MARKER`: `0x00` for COBS and `0xC0` for SLIP (R7). -/
def Codec.marker : Codec → Byte
  | .cobs => 0x00
  | .slip => 0xC0

/-- `codec_encode` (43_sender.md). -/
def Codec.encodePacket : Codec → List Byte → List Byte
  | .cobs => Machine.cobsEncode
  | .slip => Machine.slipEncode

/-- `codec_decode` (42_receiver.md). -/
def Codec.decodeFrame : Codec → List Byte → Except DecodeError (List Byte)
  | .cobs => Machine.cobsDecode
  | .slip => Machine.slipDecode

namespace Machine

/-- The instance's `MARKER` (R7). -/
def State.marker (s : State) : Byte := s.cfg.codec.marker

/-- The instance's `codec_encode`. -/
def State.codecEncode (s : State) (p : List Byte) : List Byte := s.cfg.codec.encodePacket p

/-- The instance's `codec_decode`. -/
def State.codecDecode (s : State) (f : List Byte) : Except DecodeError (List Byte) :=
  s.cfg.codec.decodeFrame f

/-- The packet of SEND and ENCODE, the frame of DECODE: the whole sequence on `din` (R52). -/
def State.operand (s : State) : List Byte := s.din

/-- `len(p) > MAX_PACKET_SIZE`, the check of SEND and ENCODE (R99, R104). -/
def State.packetTooLarge (s : State) : Bool := decide (s.cfg.maxPacketSize < s.operand.length)

/-- `len(f) > RX_CAPACITY`, the check of DECODE (R105). -/
def State.frameTooLarge (s : State) : Bool := decide (s.cfg.rxCapacity < s.operand.length)

end Machine

end Sys2Proof
end

