-- ==== Sys2Proof/Machine/CodecAccess.lean ====
section
/-! DEFINITION. Codec access and illegal commands (44_codec_access.md): ENCODE, DECODE and what a word that
is no command does. -/

namespace Sys2Proof.Machine

open Sys2Proof

/-- `ENCODE [p]` (R104): no marker is appended. -/
def execEncode (s : State) : Host.Outcome State Fault Refusal :=
  if s.packetTooLarge then .next (s.raiseStatus .packetTooLarge)
  else .next (s.respond { data := s.codecEncode s.operand })

/-- `DECODE [f]` (R105): the size check comes before the decode (60_exceptions.md R113). -/
def execDecode (s : State) : Host.Outcome State Fault Refusal :=
  if s.frameTooLarge then .next (s.raiseStatus .frameTooLarge)
  else
    match s.codecDecode s.operand with
    | .error e => .next (s.raiseStatus e.status)
    | .ok p => .next (s.respond { data := p })

/-- An illegal word (R106): its status and no other effect. -/
def illegalCommand (s : State) : Host.Outcome State Fault Refusal := .next (s.raiseStatus .illegalCommand)

end Sys2Proof.Machine
end

