-- ==== Sys2Proof/Machine/Receiver.lean ====
section
/-! DEFINITION. The frame receiver (42_receiver.md): ACCEPT and RESET. -/

namespace Sys2Proof.Machine

open Sys2Proof

/-- The packet a completed frame dispatches: what the codec decodes it to, or nothing where the decode
fails (R87, R93). -/
def State.packetOf (s : State) (frame : List Byte) : Option (List Byte) := (s.codecDecode frame).toOption

/-- ACCEPT of the marker: the end of an oversized frame (R88), an idle marker (R86), or a complete frame,
after which the cursor is 0 whether it decoded or not (R87). -/
def acceptMarker (s : State) : Except Fault State :=
  if s.rxOverflowed = true then .ok (((s.setOverflowed false).setCursor 0).respond { })
  else if s.rxCursor = 0 then .ok (s.respond { })
  else
    match s.memRead s.rxCursor with
    | .error e => .error e
    | .ok frame => .ok ((s.setCursor 0).respond { pkt := s.packetOf frame })

/-- ACCEPT of a payload byte: discarded while overflowed (R91), the byte that overflows a full buffer (R90),
or appended (R89). -/
def acceptPayload (b : Byte) (s : State) : Except Fault State :=
  if s.rxOverflowed = true then .ok (s.respond { })
  else if s.rxCursor = s.cfg.rxCapacity then .ok (((s.setOverflowed true).setCursor 0).respond { })
  else
    match s.memWrite s.rxCursor b with
    | .error e => .error e
    | .ok t => .ok ((t.setCursor (s.rxCursor + 1)).respond { })

/-- `ACCEPT b` (R85): the marker test comes first (60_exceptions.md R113). -/
def execAccept (b : Byte) (s : State) : Host.Outcome State Fault Refusal :=
  match if b = s.marker then acceptMarker s else acceptPayload b s with
  | .error e => .fault e
  | .ok t => .next t

/-- `RESET` (R97): both receiver registers cleared; the buffer is not written. -/
def execReset (s : State) : Host.Outcome State Fault Refusal :=
  .next (((s.setCursor 0).setOverflowed false).respond { })

end Sys2Proof.Machine
end

