-- ==== Sys2Proof/Machine/Sender.lean ====
section
/-! DEFINITION. The frame sender (43_sender.md): SEND. -/

namespace Sys2Proof.Machine

open Sys2Proof

/-- `SEND [p]` (R98): the size check first (R99), then the frame with the marker written last. -/
def execSend (s : State) : Host.Outcome State Fault Refusal :=
  if s.packetTooLarge then .next (s.raiseStatus .packetTooLarge)
  else .next (s.respond { tx := s.codecEncode s.operand ++ [s.marker] })

end Sys2Proof.Machine
end

