-- ==== Sys2Proof/Machine/Step.lean ====
section
/-! DEFINITION. One step of the block: one whole command (00_scope.md R5, 20_memory.md R39). -/

namespace Sys2Proof.Machine

open Sys2Proof

/-- One step. The block takes the host's next transaction, decodes its word, and runs the command or
answers that it is illegal (R22, R40, R51, R106). With no transaction to take it is idle and keeps all of
its state (60_exceptions.md R121). -/
def step (s : State) : Host.Outcome State Fault Refusal :=
  match s.takeCommand with
  | none => .next s
  | some t =>
    match decode t.cmd with
    | .ok i => exec i t
    | .error _ => illegalCommand t

/-- `s` with the word next in the host's transactions, so that the very next step runs it. The sequence on
its `din` is the one on the port in `s`; after reset that is `[]`. The block fetches nothing (R22): a
program is the host's list of transactions (log entry 3). -/
def State.withFetchWord (s : State) (nbits w : Nat) : State :=
  { s with pending := { cmd := tableWord nbits w, din := s.din } :: s.pending }

end Sys2Proof.Machine
end

