-- ==== Sys2Proof/Safety.lean ====
section
/-! DEFINITION. The terms the statements use: runs, the boundary state, the invariant of a safe state, the
abstract view of the receiver (10_state.md R19), and the feed of a stream of bytes (30_encoding.md R58). -/

namespace Sys2Proof.Machine

open Sys2Proof

/-- `k` steps, stopping at the first fault or refusal. It is the host's own run of the machine
(`run_eq_core_run` in Sys2Proof/Laws/Step.lean), written on the model's own types. -/
def run : Nat → State → Host.Outcome State Fault Refusal
  | 0, s => .next s
  | k + 1, s =>
    match step s with
    | .next t => run k t
    | .fault r => .fault r
    | .refused r => .refused r

/-- The receiver is at a boundary: `rx_cursor = 0` and `rx_overflowed = 0` (42_receiver.md R94). -/
abbrev State.atBoundary (s : State) : Prop := s.rxCursor = 0 ∧ s.rxOverflowed = false

/-- The transactions `PUMP bs` stands for (30_encoding.md R58). -/
def feed (bs : List Byte) : List Command := (Asm.pump bs).assemble

/-- The response of a command that succeeds and has nothing to report. -/
def Response.plain : Response := { }

/-- The status bytes the block can answer with (60_exceptions.md R108). -/
def legalStatusCodes : List Byte := [0x00, 0x01, 0x02, 0x03, 0x04, 0x05, 0x06]

/-- The invariant of every state a run can reach from the reset of an instance with legal parameters. -/
structure State.Inv (s : State) : Prop where
  /-- `RX_CAPACITY ≥ 1` (00_scope.md R8). -/
  cfg_wf : s.cfg.wf = true
  /-- `0 ≤ cursor ≤ capacity` (10_state.md R16). -/
  cursor_le : s.rxCursor ≤ s.cfg.rxCapacity
  /-- `rx_overflowed = 1` implies `rx_cursor = 0` (R20). -/
  cursor_of_overflowed : s.rxOverflowed = true → s.rxCursor = 0
  /-- The canonical form of the buffer's contents. -/
  buf_wf : s.rxBuf.wf
  /-- Only indices `0..RX_CAPACITY-1` were ever written (R18, 20_memory.md R36). -/
  buf_within : ∀ c ∈ s.rxBuf, c.1 < s.cfg.rxCapacity
  /-- Every byte of the frame in progress was written, so none is the unspecified one of power-on (R18). -/
  frame_written : ∀ i < s.rxCursor, (s.rxBuf.read i).isSome = true
  /-- "the marker itself is never stored" (R18, 42_receiver.md R87). -/
  frame_marker_free : ∀ i < s.rxCursor, s.rxByte i ≠ s.marker
  /-- The status codes `0x07` to `0xFF` are never produced (60_exceptions.md R108). -/
  status_legal : ∀ r ∈ s.responses, r.status ∈ legalStatusCodes

/-- A safe run: `k` steps end in a state that meets the invariant, with no fault and no refusal. -/
def SafeFor (k : Nat) (s : State) : Prop := ∃ t, run k s = .next t ∧ t.Inv

/-- The abstract view of the receiver: `rx_buf` and `rx_cursor` replaced by the one sequence `rx_frame`
(R19). -/
structure AbsReceiver where
  frame : List Byte
  overflowed : Bool
  deriving DecidableEq, Repr

/-- The abstract view of a state (R19). -/
def State.abs (s : State) : AbsReceiver := { frame := s.rxFrame, overflowed := s.rxOverflowed }

/-- ACCEPT on the abstract view: an append is `rx_frame <- rx_frame ++ [b]` and a cursor reset is
`rx_frame <- []` (R19). -/
def absAccept (c : Config) (b : Byte) (a : AbsReceiver) : AbsReceiver × Response :=
  if b = c.codec.marker then
    ({ frame := [], overflowed := false },
      { pkt := if a.overflowed = true ∨ a.frame = [] then none
               else (c.codec.decodeFrame a.frame).toOption })
  else if a.overflowed = true then (a, { })
  else if a.frame.length = c.rxCapacity then ({ frame := [], overflowed := true }, { })
  else ({ frame := a.frame ++ [b], overflowed := false }, { })

/-- A transaction on the abstract view. -/
def absCommand (c : Config) (t : Command) (a : AbsReceiver) : AbsReceiver × Response :=
  match decode t.cmd with
  | .error _ => (a, { status := 0x06 })
  | .ok (.accept b) => absAccept c b a
  | .ok .reset => ({ frame := [], overflowed := false }, { })
  | .ok .send =>
    (a, if c.maxPacketSize < t.din.length then { status := 0x01 }
        else { tx := c.codec.encodePacket t.din ++ [c.codec.marker] })
  | .ok .encode =>
    (a, if c.maxPacketSize < t.din.length then { status := 0x01 }
        else { data := c.codec.encodePacket t.din })
  | .ok .decode =>
    (a, if c.rxCapacity < t.din.length then { status := 0x05 }
        else match c.codec.decodeFrame t.din with
          | .ok p => { data := p }
          | .error .invalidLengthByte => { status := 0x02 }
          | .error .truncated => { status := 0x03 }
          | .error .invalidEscape => { status := 0x04 })

/-- A sequence of transactions on the abstract view: the end view and the responses, in order. -/
def absRun (c : Config) (a : AbsReceiver) : List Command → AbsReceiver × List Response
  | [] => (a, [])
  | t :: ts =>
    let r := absCommand c t a
    let rest := absRun c r.1 ts
    (rest.1, r.2 :: rest.2)

/-- What the marker after the payload bytes `f` dispatches from a state: nothing where the receiver is or
gets overflowed, nothing where the frame is empty, else what the whole frame decodes to (R86 to R91). -/
def State.feedResult (s : State) (f : List Byte) : Option (List Byte) :=
  if s.rxOverflowed = true ∨ s.cfg.rxCapacity < s.rxCursor + f.length then none
  else if s.rxFrame ++ f = [] then none
  else (s.codecDecode (s.rxFrame ++ f)).toOption

end Sys2Proof.Machine
end

