-- ==== Sys2Proof/Certificates/Slice0/Obligations.lean ====
section
/-! DEFINITION. The statements for the provers, one for each entry of OBLIGATIONS.json. Each docstring names
the rule of spec/ it formalises. -/

open Sys2Proof Sys2Proof.Machine

/-! ### Command words -/

/-- R48, R50, R51: a word decodes to a command exactly if it is that command's encoding, so decoding an
encoded command gives it back with every operand, and no command has two words. The encodings are the
spec's decisions D2 to D4. -/
def Obligations.DecodeIffEncode : Prop :=
  ∀ (w : Word) (i : Instr), decode w = .ok i ↔ (i.wf = true ∧ w = encode i)

/-- R51: the decoder on the fields of the word as numbers, and the count of the legal words (the spec's
decision D4). -/
def Obligations.DecoderReadsFieldsWith260LegalWords : Prop :=
  (∀ w : Word, decode w =
    if w.toNat / 256 % 16 ≠ 0 then .error .reservedField
    else if w.toNat / 4096 = 1 then .ok (.accept (BitVec.ofNat 8 (w.toNat % 256)))
    else if 2 ≤ w.toNat / 4096 ∧ w.toNat / 4096 ≤ 5 then
      if w.toNat % 256 ≠ 0 then .error .operandNotZero
      else .ok ([Instr.send, .reset, .encode, .decode].getD (w.toNat / 4096 - 2) .send)
    else .error .unknownOp) ∧
  ∃ legal : List Word, legal.Nodup ∧ legal.length = 260 ∧
    ∀ w : Word, w ∈ legal ↔ ∃ i : Instr, decode w = .ok i

/-- The match and mask of each row of spec/opcode_table.json pick out the words that decode to it. -/
def Obligations.OpcodeTableRowsDecode : Prop :=
  ∀ w : Word,
    ((∃ b, decode w = .ok (.accept b)) ↔ w &&& 0xFF00#16 = 0x1000#16) ∧
    (decode w = .ok .send ↔ w &&& 0xFFFF#16 = 0x2000#16) ∧
    (decode w = .ok .reset ↔ w &&& 0xFFFF#16 = 0x3000#16) ∧
    (decode w = .ok .encode ↔ w &&& 0xFFFF#16 = 0x4000#16) ∧
    (decode w = .ok .decode ↔ w &&& 0xFFFF#16 = 0x5000#16)

/-- Words written out from R47 and 95_test_vectors.md §2.8, and what each decodes to. -/
def Obligations.WrittenOutWordsDecode : Prop :=
  decode 0b0001000000000000#16 = .ok (.accept 0x00) ∧
  decode 0b0001000011111111#16 = .ok (.accept 0xFF) ∧
  decode 0b0001000011000000#16 = .ok (.accept 0xC0) ∧
  decode 0b0010000000000000#16 = .ok .send ∧
  decode 0b0011000000000000#16 = .ok .reset ∧
  decode 0b0100000000000000#16 = .ok .encode ∧
  decode 0b0101000000000000#16 = .ok .decode ∧
  decode 0b0000000000000000#16 = .error .unknownOp ∧
  decode 0b0001000100000000#16 = .error .reservedField ∧
  decode 0b0011000000000001#16 = .error .operandNotZero ∧
  decode 0b1111000000000000#16 = .error .unknownOp ∧
  decode 0b0101000010000000#16 = .error .operandNotZero

/-- R57, R58: the words and the `din` of the assembler's lines, and PUMP as one ACCEPT for each byte (the spec's
decision D30). -/
def Obligations.AssemblerLinesGiveTheirWords : Prop :=
  (∀ b : Byte, (Asm.accept b).assemble = [{ cmd := BitVec.ofNat 16 (0x1000 + b.toNat), din := [] }]) ∧
  (∀ p, (Asm.send p).assemble = [{ cmd := 0x2000, din := p }]) ∧
  Asm.reset.assemble = [{ cmd := 0x3000, din := [] }] ∧
  (∀ p, (Asm.encode p).assemble = [{ cmd := 0x4000, din := p }]) ∧
  (∀ f, (Asm.decode f).assemble = [{ cmd := 0x5000, din := f }]) ∧
  (∀ w, (Asm.word w).assemble = [{ cmd := w, din := [] }]) ∧
  (∀ bs, (Asm.pump bs).assemble = bs.flatMap fun b => (Asm.accept b).assemble)

/-! ### One step -/

/-- A step with a transaction to take whose word decodes runs that command, with the transaction on the
two input ports and taken off the host's list. -/
def Obligations.StepRunsTheDecodedCommand : Prop :=
  ∀ (s : State) (c : Command) (rest : List Command) (i : Instr),
    s.pending = c :: rest → decode c.cmd = .ok i →
    step s = exec i { s with cmd := c.cmd, din := c.din, pending := rest }

/-- R54, R106: each group of illegal words answers `ILLEGAL_COMMAND` and has no other effect (the spec's
decision D4). -/
def Obligations.IllegalWordOnlyAnswersItsStatus : Prop :=
  ∀ (s : State) (c : Command) (rest : List Command),
    s.pending = c :: rest →
    (c.cmd.toNat / 4096 ∈ [0x0, 0x6, 0x7, 0x8, 0x9, 0xA, 0xB, 0xC, 0xD, 0xE, 0xF] ∨
      c.cmd.toNat / 256 % 16 ≠ 0 ∨
      (c.cmd.toNat / 4096 ∈ [0x2, 0x3, 0x4, 0x5] ∧ c.cmd.toNat % 256 ≠ 0)) →
    step s = .next { s with
      cmd := c.cmd, din := c.din, pending := rest,
      responses := s.responses ++ [{ status := 0x06, tx := [], pkt := none, data := [] }] }

/-- R121: between commands the block is idle and keeps all of its state (the spec's decision D18; that a
step with no transaction is this idle is log entry 3). -/
def Obligations.IdleStepKeepsEverything : Prop :=
  ∀ s : State, s.pending = [] → step s = .next s

/-- The word placed by `withFetchWord` is the very next command (log entry 3). -/
def Obligations.PlacedWordRunsNext : Prop :=
  ∀ (s : State) (i : Instr),
    step (s.withFetchWord 16 (encode i).toNat) = exec i { s with cmd := encode i }

/-- R40, R41, R42: after `k` steps the first `k` transactions have been taken in order, each has added one
response at the end, no response given earlier has changed, and the parameters are as they were (R15). The
order is the spec's decision D1; the two lists are the model's own (log entries 3 and 4). -/
def Obligations.RunAnswersCommandsInOrder : Prop :=
  ∀ (k : Nat) (s t : State), run k s = .next t →
    t.pending = s.pending.drop k ∧ t.cfg = s.cfg ∧
    ∃ rs : List Response, rs.length = min k s.pending.length ∧
      t.responses = s.responses ++ rs ∧
      t.wire = s.wire ++ rs.flatMap Response.tx ∧
      t.dispatched = s.dispatched ++ rs.filterMap Response.pkt

/-- R53: ACCEPT, RESET and an illegal word ignore what is on `din`, and no command reads what an earlier
transaction left on the two input ports (the spec's decision D5). -/
def Obligations.DinIgnoredAndNotKept : Prop :=
  (∀ (s t : State) (w : Word) (d d' : List Byte) (rest : List Command),
    (∀ i, decode w = .ok i → i = .reset ∨ ∃ b, i = .accept b) →
    step { s with pending := { cmd := w, din := d } :: rest } = .next t →
    step { s with pending := { cmd := w, din := d' } :: rest } = .next { t with din := d' }) ∧
  (∀ (s : State) (w : Word) (d : List Byte), s.pending ≠ [] →
    step { s with cmd := w, din := d } = step s)

/-! ### The COBS codec -/

/-- R60, R61, R63: the encoder on a packet cut at the end of its first run. That the final run is always
emitted after a full run is the spec's decision D9. -/
def Obligations.CobsEncoderRunByRun : Prop :=
  cobsEncode [] = [] ∧
  (∀ d : List Byte, d ≠ [] → d.length ≤ 253 → 0x00#8 ∉ d →
    cobsEncode d = BitVec.ofNat 8 (d.length + 1) :: d) ∧
  (∀ d p : List Byte, d.length ≤ 253 → 0x00#8 ∉ d →
    cobsEncode (d ++ 0x00#8 :: p) =
      BitVec.ofNat 8 (d.length + 1) :: d ++ if p = [] then [0x01] else cobsEncode p) ∧
  (∀ d p : List Byte, d.length = 254 → 0x00#8 ∉ d →
    cobsEncode (d ++ p) = 0xFF#8 :: d ++ if p = [] then [0x01] else cobsEncode p)

/-- R64: the encoder's output holds no `0x00`. -/
def Obligations.CobsOutputIsZeroFree : Prop := ∀ p : List Byte, 0x00#8 ∉ cobsEncode p

/-- R65: the exact length, the bound of the source with floor division (the spec's decision D19), and that
it is tight. -/
def Obligations.CobsEncodedLength : Prop :=
  (cobsEncode []).length = 0 ∧
  (∀ p : List Byte, p ≠ [] →
    (cobsEncode p).length = p.length + 1 + cobsFullRuns p ∧
    cobsFullRuns p ≤ p.length / 254 ∧
    (cobsEncode p).length ≤ p.length + p.length / 254 + 1) ∧
  (∀ p : List Byte, p ≠ [] → 0x00#8 ∉ p →
    (cobsEncode p).length = p.length + p.length / 254 + 1)

/-- R66, R68, R69, R70: the decoder on a frame cut after its first block. -/
def Obligations.CobsDecoderBlockByBlock : Prop :=
  cobsDecode [] = .ok [] ∧
  (∀ f : List Byte, cobsDecode (0x00#8 :: f) = .error .invalidLengthByte) ∧
  (∀ (n : Byte) (f : List Byte), n ≠ 0x00#8 → f.length < n.toNat - 1 →
    cobsDecode (n :: f) = .error .truncated) ∧
  (∀ (n : Byte) (d f : List Byte), n ≠ 0x00#8 → d.length = n.toNat - 1 →
    cobsDecode (n :: (d ++ f)) =
      match cobsDecode f with
      | .error e => .error e
      | .ok p => .ok (d ++ (if n.toNat < 255 ∧ f ≠ [] then [0x00] else []) ++ p))

/-- R67: `0x00` as a length byte fails the decode, a frame without one never fails so, and a frame the
receiver collected is such a frame. -/
def Obligations.CobsZeroLengthByteOnlyFromDecode : Prop :=
  (∀ f : List Byte, cobsDecode (0x00#8 :: f) = .error .invalidLengthByte) ∧
  (∀ f : List Byte, 0x00#8 ∉ f → cobsDecode f ≠ .error .invalidLengthByte) ∧
  (∀ s : State, s.Inv → s.cfg.codec = .cobs → cobsDecode s.rxFrame ≠ .error .invalidLengthByte)

/-- R72: the decoder accepts frames the encoder never produces, is not injective, and never lengthens. -/
def Obligations.CobsDecoderAcceptsMoreThanEncoded : Prop :=
  (∀ d : List Byte, d.length = 254 →
    cobsDecode (0xFF#8 :: d) = .ok d ∧ cobsDecode (0xFF#8 :: d ++ [0x01]) = .ok d ∧
    ∀ p, cobsEncode p ≠ 0xFF#8 :: d) ∧
  (cobsDecode [0x02, 0x00] = .ok [0x00] ∧ cobsDecode [0x01, 0x01] = .ok [0x00] ∧
    ∀ p, cobsEncode p ≠ [0x02, 0x00]) ∧
  (∀ f p : List Byte, cobsDecode f = .ok p → p.length ≤ f.length)

/-- R73: decoding what the encoder made of a packet gives the packet, for every packet. -/
def Obligations.CobsRoundTrip : Prop := ∀ p : List Byte, cobsDecode (cobsEncode p) = .ok p

/-- R74: the first failing length byte decides, whatever follows it (the spec's decision D12). -/
def Obligations.CobsFirstErrorDecides : Prop :=
  ∀ (f p g : List Byte), cobsDecode f = .ok p →
    cobsDecode (f ++ 0x00#8 :: g) = .error .invalidLengthByte ∧
    ∀ n : Byte, n ≠ 0x00#8 → g.length < n.toNat - 1 → cobsDecode (f ++ n :: g) = .error .truncated

/-! ### The SLIP codec -/

/-- R76: the encoder byte by byte. -/
def Obligations.SlipEncoderByteByByte : Prop :=
  slipEncode [] = [] ∧
  (∀ p : List Byte, slipEncode (0xC0#8 :: p) = 0xDB#8 :: 0xDC#8 :: slipEncode p) ∧
  (∀ p : List Byte, slipEncode (0xDB#8 :: p) = 0xDB#8 :: 0xDD#8 :: slipEncode p) ∧
  (∀ (b : Byte) (p : List Byte), b ≠ 0xC0#8 → b ≠ 0xDB#8 → slipEncode (b :: p) = b :: slipEncode p)

/-- R78: the exact length and the two bounds, the upper one reached. -/
def Obligations.SlipEncodedLength : Prop :=
  ∀ p : List Byte,
    (slipEncode p).length = p.length + p.count 0xC0#8 + p.count 0xDB#8 ∧
    p.length ≤ (slipEncode p).length ∧ (slipEncode p).length ≤ 2 * p.length ∧
    ((∀ b ∈ p, b = 0xC0#8 ∨ b = 0xDB#8) → (slipEncode p).length = 2 * p.length)

/-- R79, R80: the decoder on each form a frame begins with. -/
def Obligations.SlipDecoderCaseByCase : Prop :=
  slipDecode [] = .ok [] ∧
  slipDecode [0xDB#8] = .error .truncated ∧
  (∀ f : List Byte, slipDecode (0xDB#8 :: 0xDC#8 :: f) = (slipDecode f).map (0xC0#8 :: ·)) ∧
  (∀ f : List Byte, slipDecode (0xDB#8 :: 0xDD#8 :: f) = (slipDecode f).map (0xDB#8 :: ·)) ∧
  (∀ (c : Byte) (f : List Byte), c ≠ 0xDC#8 → c ≠ 0xDD#8 →
    slipDecode (0xDB#8 :: c :: f) = .error .invalidEscape) ∧
  (∀ (b : Byte) (f : List Byte), b ≠ 0xDB#8 → slipDecode (b :: f) = (slipDecode f).map (b :: ·))

/-- R83: no END in the output, the round trip, and a decode that never lengthens. -/
def Obligations.SlipMarkerFreeRoundTripAndLength : Prop :=
  (∀ p : List Byte, 0xC0#8 ∉ slipEncode p) ∧
  (∀ p : List Byte, slipDecode (slipEncode p) = .ok p) ∧
  (∀ f p : List Byte, slipDecode f = .ok p → p.length ≤ f.length)

/-- R84: the first error in scan order decides, whatever follows it; a dangling ESC, which nothing follows,
is the error exactly where what comes before it decodes (the spec's decision D12). -/
def Obligations.SlipFirstErrorDecides : Prop :=
  slipDecode [0xDB, 0x01, 0xDB] = .error .invalidEscape ∧
  ∀ (f p : List Byte), slipDecode f = .ok p →
    slipDecode (f ++ [0xDB#8]) = .error .truncated ∧
    ∀ (c : Byte) (g : List Byte), c ≠ 0xDC#8 → c ≠ 0xDD#8 →
      slipDecode (f ++ 0xDB#8 :: c :: g) = .error .invalidEscape

/-! ### ACCEPT and RESET -/

/-- R7: the boundary marker follows from the codec. -/
def Obligations.MarkerFollowsFromCodec : Prop :=
  ∀ s : State, (s.cfg.codec = .cobs → s.marker = 0x00#8) ∧ (s.cfg.codec = .slip → s.marker = 0xC0#8)

/-- R86: an idle marker changes no state and dispatches nothing. -/
def Obligations.AcceptIdleMarker : Prop :=
  ∀ s : State, s.rxCursor = 0 → s.rxOverflowed = false →
    exec (.accept s.marker) s = .next { s with responses := s.responses ++ [Response.plain] }

/-- R87: a marker after stored bytes decodes exactly those bytes, dispatches what they decode to or drops
the frame, and resets the cursor in both cases; the buffer is not cleared. -/
def Obligations.AcceptCompletesFrame : Prop :=
  ∀ s : State, s.rxOverflowed = false → 0 < s.rxCursor → s.rxCursor ≤ s.cfg.rxCapacity →
    (∀ p, s.codecDecode ((List.range s.rxCursor).map s.rxByte) = .ok p →
      exec (.accept s.marker) s = .next { s with
        rxCursor := 0,
        responses := s.responses ++ [{ status := 0x00, tx := [], pkt := some p, data := [] }] }) ∧
    (∀ e, s.codecDecode ((List.range s.rxCursor).map s.rxByte) = .error e →
      exec (.accept s.marker) s = .next { s with
        rxCursor := 0, responses := s.responses ++ [Response.plain] })

/-- R88: a marker while overflowed ends the oversized frame with no decode and no dispatch. -/
def Obligations.AcceptEndsOversizedFrame : Prop :=
  ∀ s : State, s.rxOverflowed = true →
    exec (.accept s.marker) s = .next { s with
      rxOverflowed := false, rxCursor := 0, responses := s.responses ++ [Response.plain] }

/-- R89: a payload byte that fits is stored at the cursor, and nothing else of the buffer changes. -/
def Obligations.AcceptAppendsPayloadByte : Prop :=
  ∀ (s : State) (b : Byte), b ≠ s.marker → s.rxOverflowed = false → s.rxCursor < s.cfg.rxCapacity →
    ∃ m : Memory,
      exec (.accept b) s = .next { s with
        rxBuf := m, rxCursor := s.rxCursor + 1, responses := s.responses ++ [Response.plain] } ∧
      s.rxCursor + 1 ≤ s.cfg.rxCapacity ∧
      m.read s.rxCursor = some b ∧ (∀ i, i ≠ s.rxCursor → m.read i = s.rxBuf.read i) ∧
      { s with rxBuf := m, rxCursor := s.rxCursor + 1 }.rxFrame = s.rxFrame ++ [b]

/-- R90: the payload byte that finds the buffer full is discarded and sets Overflowed; the cursor resets
at once (the spec's decision D25, conflict C7). -/
def Obligations.AcceptDetectsOverflow : Prop :=
  ∀ (s : State) (b : Byte), b ≠ s.marker → s.rxOverflowed = false → s.rxCursor = s.cfg.rxCapacity →
    exec (.accept b) s = .next { s with
      rxOverflowed := true, rxCursor := 0, responses := s.responses ++ [Response.plain] }

/-- R91: a payload byte while overflowed is discarded and changes no state. -/
def Obligations.AcceptDiscardsWhileOverflowed : Prop :=
  ∀ (s : State) (b : Byte), b ≠ s.marker → s.rxOverflowed = true →
    exec (.accept b) s = .next { s with responses := s.responses ++ [Response.plain] }

/-- The frame of ACCEPT: what it leaves unchanged, and the one byte of the buffer it may store. -/
def Obligations.AcceptFrame : Prop :=
  ∀ (s t : State) (b : Byte), exec (.accept b) s = .next t →
    t.cfg = s.cfg ∧ t.cmd = s.cmd ∧ t.din = s.din ∧ t.pending = s.pending ∧
    (∃ r : Response, t.responses = s.responses ++ [r] ∧ r.status = 0x00 ∧ r.tx = [] ∧ r.data = []) ∧
    (b ≠ s.marker ∧ s.rxOverflowed = false ∧ s.rxCursor < s.cfg.rxCapacity →
      ∀ i, i ≠ s.rxCursor → t.rxByte i = s.rxByte i) ∧
    (¬(b ≠ s.marker ∧ s.rxOverflowed = false ∧ s.rxCursor < s.cfg.rxCapacity) →
      ∀ i, t.rxByte i = s.rxByte i)

/-- When a command stops: exactly ACCEPT, of any byte, in a state that is not overflowed and whose cursor is
outside the buffer. The invariant of R16 rules that state out, and the fault in it is the model's choice (log
entry 5). Every other command in every other state completes. -/
def Obligations.OnlyAcceptOutsideBufferFaults : Prop :=
  ∀ (i : Instr) (s : State),
    (exec i s = .fault .bufferIndexOutOfRange ↔
      (∃ b, i = .accept b) ∧ s.rxOverflowed = false ∧ s.cfg.rxCapacity < s.rxCursor) ∧
    (¬((∃ b, i = .accept b) ∧ s.rxOverflowed = false ∧ s.cfg.rxCapacity < s.rxCursor) →
      ∃ t, exec i s = .next t)

/-- R92: where a dispatch comes from, and how long the packet can be (no check of `MAX_PACKET_SIZE` is the
spec's decision D11). -/
def Obligations.DispatchOnlyFromCompletedFrame : Prop :=
  (∀ (s t : State) (i : Instr) (r : Response) (p : List Byte),
    exec i s = .next t → t.responses = s.responses ++ [r] → r.pkt = some p →
    i = .accept s.marker ∧ s.rxOverflowed = false ∧ 0 < s.rxCursor ∧
    s.codecDecode s.rxFrame = .ok p ∧ p.length ≤ s.rxCursor ∧ s.rxCursor ≤ s.cfg.rxCapacity) ∧
  Codec.cobs.decodeFrame [0x01] = .ok [] ∧
  (∀ f : List Byte, f ≠ [] → Codec.slip.decodeFrame f ≠ .ok [])

/-- R97: RESET clears the two receiver registers and writes nothing else (that it clears `rx_overflowed` is
the spec's decision D20). -/
def Obligations.ResetClearsReceiver : Prop :=
  ∀ s : State, exec .reset s = .next { s with
    rxCursor := 0, rxOverflowed := false, responses := s.responses ++ [Response.plain] }

/-- R123: the state after the power-on reset of an instance with any parameters, and that the RESET
command gives the same receiver (R122; the spec's decision D14). That nothing of the buffer is listed is how
the model holds its unspecified contents (log entry 2). -/
def Obligations.ResetStateIsAtBoundary : Prop :=
  (∀ c : Config, (State.resetWith c).rxCursor = 0 ∧ (State.resetWith c).rxOverflowed = false ∧
    (State.resetWith c).cfg = c ∧ ∀ i, (State.resetWith c).rxBuf.read i = none) ∧
  (∀ s t : State, exec .reset s = .next t →
    t.rxCursor = (State.resetWith s.cfg).rxCursor ∧
    t.rxOverflowed = (State.resetWith s.cfg).rxOverflowed ∧
    t.abs = (State.resetWith s.cfg).abs)

/-! ### SEND, ENCODE and DECODE -/

/-- R98, R99: SEND of a packet that is not too long, and of one that is. -/
def Obligations.SendEmitsFrameThenMarker : Prop :=
  ∀ s : State,
    (s.din.length ≤ s.cfg.maxPacketSize →
      exec .send s = .next { s with responses := s.responses ++
        [{ status := 0x00, tx := s.codecEncode s.din ++ [s.marker], pkt := none, data := [] }] }) ∧
    (s.cfg.maxPacketSize < s.din.length →
      exec .send s = .next { s with responses := s.responses ++
        [{ status := 0x01, tx := [], pkt := none, data := [] }] })

/-- R100: the empty packet is sent as the lone marker, which a receiver at a boundary ignores. -/
def Obligations.EmptyPacketIsLoneMarker : Prop :=
  ∀ s : State, s.din = [] →
    exec .send s = .next { s with responses := s.responses ++ [{ tx := [s.marker] }] } ∧
    ∀ r : State, r.cfg.codec = s.cfg.codec → r.atBoundary →
      exec (.accept s.marker) r = .next { r with responses := r.responses ++ [Response.plain] }

/-- R101: the length of what a successful SEND emits, and that the marker stands only at its end. -/
def Obligations.SendWireLengthAndLoneMarker : Prop :=
  ∀ s : State, s.din.length ≤ s.cfg.maxPacketSize →
    ∃ e : List Byte, e = s.codecEncode s.din ∧ s.marker ∉ e ∧
      exec .send s = .next { s with responses := s.responses ++ [{ tx := e ++ [s.marker] }] } ∧
      (e ++ [s.marker]).length = e.length + 1 ∧
      (s.cfg.codec = .cobs → s.din ≠ [] →
        (e ++ [s.marker]).length ≤ s.din.length + s.din.length / 254 + 2) ∧
      (s.cfg.codec = .cobs → s.din = [] → (e ++ [s.marker]).length = 1) ∧
      (s.cfg.codec = .slip →
        s.din.length + 1 ≤ (e ++ [s.marker]).length ∧
        (e ++ [s.marker]).length ≤ 2 * s.din.length + 1)

/-- R104: ENCODE of a packet that is not too long, and of one that is (the spec's own command, D13). -/
def Obligations.EncodeGivesFrameOnDout : Prop :=
  ∀ s : State,
    (s.din.length ≤ s.cfg.maxPacketSize →
      exec .encode s = .next { s with responses := s.responses ++
        [{ status := 0x00, tx := [], pkt := none, data := s.codecEncode s.din }] } ∧
      s.marker ∉ s.codecEncode s.din) ∧
    (s.cfg.maxPacketSize < s.din.length →
      exec .encode s = .next { s with responses := s.responses ++
        [{ status := 0x01, tx := [], pkt := none, data := [] }] })

/-- R105: DECODE of a frame that is too long, of one that decodes, and of one that fails in each way (the
spec's own command, D13). -/
def Obligations.DecodeGivesPacketOrStatus : Prop :=
  ∀ s : State,
    (s.cfg.rxCapacity < s.din.length →
      exec .decode s = .next { s with responses := s.responses ++
        [{ status := 0x05, tx := [], pkt := none, data := [] }] }) ∧
    (s.din.length ≤ s.cfg.rxCapacity →
      (∀ p, s.codecDecode s.din = .ok p →
        exec .decode s = .next { s with responses := s.responses ++
          [{ status := 0x00, tx := [], pkt := none, data := p }] }) ∧
      (s.codecDecode s.din = .error .invalidLengthByte →
        exec .decode s = .next { s with responses := s.responses ++
          [{ status := 0x02, tx := [], pkt := none, data := [] }] }) ∧
      (s.codecDecode s.din = .error .truncated →
        exec .decode s = .next { s with responses := s.responses ++
          [{ status := 0x03, tx := [], pkt := none, data := [] }] }) ∧
      (s.codecDecode s.din = .error .invalidEscape →
        exec .decode s = .next { s with responses := s.responses ++
          [{ status := 0x04, tx := [], pkt := none, data := [] }] }))

/-- R102 and the spec's decision D21: the three commands change nothing but the list of responses, and what they answer depends on the parameters and `din` alone, not on the receiver. -/
def Obligations.SendPathIndependentOfReceiver : Prop :=
  ∀ i ∈ [Instr.send, .encode, .decode], ∀ s u : State, s.cfg = u.cfg → s.din = u.din →
    ∃ r : Response,
      exec i s = .next { s with responses := s.responses ++ [r] } ∧
      exec i u = .next { u with responses := u.responses ++ [r] }

/-! ### Whole-machine rules -/

/-- R36: the only write to the buffer is one byte at the cursor, below `RX_CAPACITY`, by ACCEPT. -/
def Obligations.OnlyWriteIsOneByteAtCursor : Prop :=
  ∀ (i : Instr) (s t : State), exec i s = .next t → ∀ j, t.rxBuf.read j ≠ s.rxBuf.read j →
    j = s.rxCursor ∧ j < s.cfg.rxCapacity ∧ ∃ b, i = .accept b ∧ t.rxBuf.read j = some b

/-- R38: what each command repeated with the same operands does. -/
def Obligations.EffectsOfRepeatedCommands : Prop :=
  (∀ s t u : State, exec .reset s = .next t → exec .reset t = .next u →
    u = { t with responses := u.responses }) ∧
  (∀ i ∈ [Instr.encode, .decode], ∀ s t : State, exec i s = .next t →
    t = { s with responses := t.responses }) ∧
  (∀ s t u : State, exec .send s = .next t → exec .send t = .next u →
    u = { s with responses := u.responses } ∧
    ∃ x, t.wire = s.wire ++ x ∧ u.wire = s.wire ++ x ++ x) ∧
  (∀ (s t u : State) (b : Byte), b ≠ s.marker → s.rxOverflowed = false →
    s.rxCursor + 2 ≤ s.cfg.rxCapacity →
    exec (.accept b) s = .next t → exec (.accept b) t = .next u →
    u.rxFrame = s.rxFrame ++ [b, b])

/-- R16, R20: the cursor stays within the buffer, moves only as the rules say, and is 0 while overflowed. -/
def Obligations.CursorInvariantKept : Prop :=
  ∀ s t : State, step s = .next t →
    (s.rxCursor ≤ s.cfg.rxCapacity → t.rxCursor ≤ t.cfg.rxCapacity) ∧
    (t.rxCursor = s.rxCursor ∨ t.rxCursor = 0 ∨
      (t.rxCursor = s.rxCursor + 1 ∧ s.rxOverflowed = false)) ∧
    ((s.rxOverflowed = true → s.rxCursor = 0) →
      (t.rxOverflowed = true → t.rxCursor = 0) ∧
      (s.rxOverflowed = true → t.rxCursor = s.rxCursor))

/-- R109: a command that answers any status but `OK` changes no state and emits nothing. -/
def Obligations.FailedCommandOnlyAnswers : Prop :=
  ∀ (s t : State) (c : Command) (rest : List Command) (r : Response),
    s.pending = c :: rest → step s = .next t → t.responses = s.responses ++ [r] → r.status ≠ 0x00 →
    r.tx = [] ∧ r.pkt = none ∧ r.data = [] ∧
    t = { s with cmd := c.cmd, din := c.din, pending := rest, responses := s.responses ++ [r] }

/-- R108: each status code comes only from the commands the table names, and no other code occurs (the
spec's decision D6). -/
def Obligations.StatusCodesComeFromTheirCommands : Prop :=
  ∀ (s t : State) (c : Command) (rest : List Command) (r : Response),
    s.pending = c :: rest → step s = .next t → t.responses = s.responses ++ [r] →
    r.status.toNat ≤ 6 ∧
    (r.status = 0x01 → decode c.cmd = .ok .send ∨ decode c.cmd = .ok .encode) ∧
    (r.status = 0x02 → decode c.cmd = .ok .decode ∧ s.cfg.codec = .cobs) ∧
    (r.status = 0x03 → decode c.cmd = .ok .decode) ∧
    (r.status = 0x04 → decode c.cmd = .ok .decode ∧ s.cfg.codec = .slip) ∧
    (r.status = 0x05 → decode c.cmd = .ok .decode) ∧
    (r.status = 0x06 ↔ ∃ e, decode c.cmd = .error e)

/-- R113: which condition decides where several apply (the spec's decisions D4, D12 and D13). -/
def Obligations.PriorityWithinOneCommand : Prop :=
  ∀ (s : State) (c : Command) (rest : List Command),
    s.pending = c :: rest → s.rxCursor ≤ s.cfg.rxCapacity →
    ∃ (t : State) (r : Response), step s = .next t ∧ t.responses = s.responses ++ [r] ∧
      ((∃ e, decode c.cmd = .error e) → r.status = 0x06) ∧
      ((decode c.cmd = .ok .send ∨ decode c.cmd = .ok .encode) →
        s.cfg.maxPacketSize < c.din.length → r.status = 0x01) ∧
      (decode c.cmd = .ok .decode → s.cfg.rxCapacity < c.din.length → r.status = 0x05) ∧
      (∀ e, decode c.cmd = .ok .decode → c.din.length ≤ s.cfg.rxCapacity →
        s.codecDecode c.din = .error e → r.status = e.status.code) ∧
      (decode c.cmd = .ok (.accept s.marker) → s.rxOverflowed = true →
        t.atBoundary ∧ r = Response.plain) ∧
      (∀ b, decode c.cmd = .ok (.accept b) → b ≠ s.marker → s.rxOverflowed = true →
        t.rxOverflowed = true ∧ r = Response.plain)

/-- The invariant holds after the reset of an instance with legal parameters. -/
def Obligations.InvariantHoldsAtReset : Prop :=
  (∀ c : Config, c.wf = true → (State.resetWith c).Inv) ∧ State.reset.Inv

/-- Every step from a state that meets the invariant ends in one that meets it. -/
def Obligations.StepKeepsInvariant : Prop :=
  ∀ s t : State, s.Inv → step s = .next t → t.Inv

/-- No run from a state that meets the invariant faults or is refused, whatever the host issues (R114,
R116, R133: no command can hang or stop). -/
def Obligations.EveryRunIsSafe : Prop := ∀ (k : Nat) (s : State), s.Inv → SafeFor k s

/-- R19: the abstract view gives the same responses as the block, for every sequence of transactions, and
stays the block's view. -/
def Obligations.AbstractViewSimulates : Prop :=
  ∀ (s : State) (cs rest : List Command),
    s.pending = cs ++ rest → s.rxCursor ≤ s.cfg.rxCapacity →
    ∃ t : State, run cs.length s = .next t ∧ t.pending = rest ∧ t.cfg = s.cfg ∧
      t.abs = (absRun s.cfg s.abs cs).1 ∧
      t.rxCursor = t.abs.frame.length ∧ t.abs.frame.length ≤ t.cfg.rxCapacity ∧
      t.responses = s.responses ++ (absRun s.cfg s.abs cs).2

/-- R30: two states with the same `rx_overflowed` and the same `rx_frame` give the same responses to every
later command sequence. -/
def Obligations.SameViewSameResponses : Prop :=
  ∀ (k : Nat) (s u t : State),
    s.cfg = u.cfg → s.pending = u.pending → s.rxOverflowed = u.rxOverflowed →
    s.rxFrame = u.rxFrame → s.rxCursor ≤ s.cfg.rxCapacity → run k s = .next t →
    ∃ (v : State) (rs : List Response), run k u = .next v ∧
      t.responses = s.responses ++ rs ∧ v.responses = u.responses ++ rs ∧
      t.rxFrame = v.rxFrame ∧ t.rxOverflowed = v.rxOverflowed

/-- R86 to R93 together: what feeding payload bytes and then the marker does from any receiver state. -/
def Obligations.FeedOfOneFrame : Prop :=
  ∀ (s : State) (f : List Byte) (rest : List Command),
    s.rxCursor ≤ s.cfg.rxCapacity → s.marker ∉ f →
    s.pending = feed (f ++ [s.marker]) ++ rest →
    ∃ t : State, run (f.length + 1) s = .next t ∧ t.pending = rest ∧ t.cfg = s.cfg ∧ t.atBoundary ∧
      t.responses = s.responses ++ List.replicate f.length Response.plain ++
        [{ pkt := s.feedResult f }]

/-- R94: streaming equivalence under its three conditions, and what happens outside them: the empty packet, a
frame too long, an overflowed start, and a start in the middle of a frame, where the held bytes and the frame
together fit the buffer or do not. -/
def Obligations.StreamingEquivalence : Prop :=
  ∀ (s : State) (p : List Byte) (rest : List Command),
    s.rxCursor ≤ s.cfg.rxCapacity →
    s.pending = feed (s.codecEncode p ++ [s.marker]) ++ rest →
    ∃ t : State, run ((s.codecEncode p).length + 1) s = .next t ∧ t.pending = rest ∧ t.atBoundary ∧
      (s.atBoundary → p ≠ [] → (s.codecEncode p).length ≤ s.cfg.rxCapacity →
        t.responses = s.responses ++ List.replicate (s.codecEncode p).length Response.plain ++
          [{ pkt := some p }]) ∧
      (s.atBoundary → p = [] → t.dispatched = s.dispatched) ∧
      (s.cfg.rxCapacity < (s.codecEncode p).length → t.dispatched = s.dispatched) ∧
      (s.rxOverflowed = true → t.dispatched = s.dispatched) ∧
      (s.rxOverflowed = false → 0 < s.rxCursor →
        s.rxCursor + (s.codecEncode p).length ≤ s.cfg.rxCapacity →
        t.dispatched = s.dispatched ++ (s.codecDecode (s.rxFrame ++ s.codecEncode p)).toOption.toList) ∧
      (s.rxOverflowed = false → 0 < s.rxCursor →
        s.cfg.rxCapacity < s.rxCursor + (s.codecEncode p).length → t.dispatched = s.dispatched)

/-- R95: after a frame that overflows, its marker, and a small valid frame with its marker, exactly the
second packet has been dispatched. -/
def Obligations.OverflowRecovery : Prop :=
  ∀ (s : State) (bs p : List Byte) (rest : List Command),
    s.atBoundary → s.marker ∉ bs → s.cfg.rxCapacity < bs.length →
    p ≠ [] → (s.codecEncode p).length ≤ s.cfg.rxCapacity →
    s.pending = feed (bs ++ [s.marker] ++ (s.codecEncode p ++ [s.marker])) ++ rest →
    ∃ t : State, run (bs.length + 1 + ((s.codecEncode p).length + 1)) s = .next t ∧
      t.pending = rest ∧ t.atBoundary ∧
      t.responses = s.responses ++
        List.replicate (bs.length + 1 + (s.codecEncode p).length) Response.plain ++
        [{ pkt := some p }]

/-- R96: every marker leaves the receiver at a boundary, and a run of markers dispatches at most one
packet, from the first, and only if a frame was pending. -/
def Obligations.MarkersLeaveBoundary : Prop :=
  (∀ s t : State, exec (.accept s.marker) s = .next t → t.atBoundary) ∧
  ∀ (m : Nat) (s : State) (rest : List Command),
    s.rxCursor ≤ s.cfg.rxCapacity →
    s.pending = feed (List.replicate (m + 1) s.marker) ++ rest →
    ∃ t : State, run (m + 1) s = .next t ∧ t.pending = rest ∧ t.atBoundary ∧
      t.responses = s.responses ++ { pkt := s.feedResult [] } :: List.replicate m Response.plain ∧
      (s.rxCursor = 0 → t.dispatched = s.dispatched)

/-- R126: whatever came before, from the first marker on every later whole frame that fits is dispatched,
in order. -/
def Obligations.ResynchronisesAtFirstMarker : Prop :=
  ∀ (s : State) (bs : List Byte) (ps : List (List Byte)) (rest : List Command),
    s.rxCursor ≤ s.cfg.rxCapacity →
    (∀ p ∈ ps, p ≠ [] ∧ (s.codecEncode p).length ≤ s.cfg.rxCapacity) →
    s.pending = feed (bs ++ [s.marker]) ++
      (feed (ps.flatMap fun p => s.codecEncode p ++ [s.marker]) ++ rest) →
    ∃ (t u : State), run (bs.length + 1) s = .next t ∧ t.atBoundary ∧
      run (ps.flatMap fun p => s.codecEncode p ++ [s.marker]).length t = .next u ∧
      u.atBoundary ∧ u.pending = rest ∧ u.dispatched = t.dispatched ++ ps

/-- R105: from a boundary, DECODE of a frame that fits and holds no marker gives as `data` exactly the
packet ACCEPT dispatches after the feed of that frame; where DECODE fails, ACCEPT drops the frame (the
spec's own command, D13). -/
def Obligations.DecodeAgreesWithReceiver : Prop :=
  ∀ (s : State) (f : List Byte) (rest : List Command),
    s.atBoundary → f ≠ [] → f.length ≤ s.cfg.rxCapacity → s.marker ∉ f →
    ∃ (u t : State) (r : Response),
      exec .decode { s with din := f } = .next u ∧ u.responses = s.responses ++ [r] ∧
      run (f.length + 1) { s with pending := feed (f ++ [s.marker]) ++ rest } = .next t ∧
      (r.status = 0x00 → t.dispatched = s.dispatched ++ [r.data]) ∧
      (r.status ≠ 0x00 → t.dispatched = s.dispatched)
end

