-- ==== Sys2Proof/Laws/Codec.lean ====
section
/-! SUPPORT. The small lemmas of the codecs' loops: each loop on each form of its list, and that the COBS
decoder's fuel does not matter once there is enough of it. -/

namespace Sys2Proof.Machine

open Sys2Proof

/-! ### COBS encoder -/

@[simp] theorem cobsBlock_length (run : List Byte) : (cobsBlock run).length = run.length + 1 := by
  simp [cobsBlock]

@[simp] theorem cobsEncodeFrom_nil (run : List Byte) : cobsEncodeFrom run [] = cobsBlock run := rfl

@[simp] theorem cobsEncodeFrom_zero (run p : List Byte) :
    cobsEncodeFrom run (0x00#8 :: p) = cobsBlock run ++ cobsEncodeFrom [] p := by
  simp [cobsEncodeFrom]

/-- A non-zero byte that makes the run full (40_cobs.md R63). -/
theorem cobsEncodeFrom_full (run p : List Byte) (b : Byte) (hb : b ≠ 0x00#8) (h : run.length = 253) :
    cobsEncodeFrom run (b :: p) = cobsBlock (run ++ [b]) ++ cobsEncodeFrom [] p := by
  simp [cobsEncodeFrom, hb, h, cobsRunLimit]

/-- A non-zero byte that does not. -/
theorem cobsEncodeFrom_grow (run p : List Byte) (b : Byte) (hb : b ≠ 0x00#8) (h : run.length ≠ 253) :
    cobsEncodeFrom run (b :: p) = cobsEncodeFrom (run ++ [b]) p := by
  have : run.length + 1 ≠ cobsRunLimit := by simp only [cobsRunLimit]; omega
  simp [cobsEncodeFrom, hb, this]

@[simp] theorem cobsEncode_nil : cobsEncode [] = [] := rfl

/-- The encoder on a packet that is not empty is its loop. -/
theorem cobsEncode_of_ne_nil {p : List Byte} (h : p ≠ []) : cobsEncode p = cobsEncodeFrom [] p := by
  simp [cobsEncode, h]

/-! ### COBS decoder -/

@[simp] theorem cobsDecodeFrom_nil (fuel : Nat) : cobsDecodeFrom fuel [] = .ok [] := by
  cases fuel <;> rfl

/-- More fuel than bytes changes nothing. -/
theorem cobsDecodeFrom_enough (fuel : Nat) :
    ∀ f : List Byte, f.length ≤ fuel → cobsDecodeFrom fuel f = cobsDecodeFrom f.length f := by
  induction fuel using Nat.strong_induction_on with
  | _ fuel ih =>
    intro f hf
    cases fuel with
    | zero => simp [List.length_eq_zero_iff.mp (Nat.le_zero.mp hf)]
    | succ fuel =>
      cases f with
      | nil => simp
      | cons n f =>
        have hf : f.length ≤ fuel := by simpa using hf
        have hd : (f.drop (n.toNat - 1)).length ≤ f.length := by simp
        have h1 := ih fuel (by omega) (f.drop (n.toNat - 1)) (by omega)
        by_cases he : f.length = fuel
        · simp [he]
        · have h2 := ih f.length (by omega) (f.drop (n.toNat - 1)) hd
          simp only [List.length_cons, cobsDecodeFrom, h1, h2]

/-! ### SLIP -/

@[simp] theorem slipEncode_nil : slipEncode [] = [] := rfl

@[simp] theorem slipEncode_cons (b : Byte) (p : List Byte) :
    slipEncode (b :: p) = slipEncodeByte b ++ slipEncode p := by
  simp [slipEncode]

@[simp] theorem slipDecode_nil : slipDecode [] = .ok [] := by simp [slipDecode]

/-- A byte that is not ESC is copied (41_slip.md R82). -/
theorem slipDecode_plain (b : Byte) (f : List Byte) (h : b ≠ slipEsc) :
    slipDecode (b :: f) = (slipDecode f).map (b :: ·) := by
  cases f <;> simp [slipDecode, h, Except.map]

/-- ESC and the byte after it (41_slip.md R79, R80). -/
theorem slipDecode_escape (c : Byte) (f : List Byte) :
    slipDecode (slipEsc :: c :: f) =
      match slipUnescape c with
      | .error e => .error e
      | .ok d => (slipDecode f).map (d :: ·) := by
  cases h : slipUnescape c <;> simp [slipDecode, h]

end Sys2Proof.Machine
end

