-- ==== Sys2Proof/Laws/Memory.lean ====
section
/-! SUPPORT. The laws of the buffer's memory: a read after a write, and that a write keeps the canonical
form. -/

namespace Sys2Proof.Machine

open Sys2Proof

/-- Nothing is listed in a memory nothing was written to. -/
@[simp] theorem read_nil (i : Nat) : Memory.read [] i = none := rfl

/-- A read after a write to the same index gives the byte written. -/
@[simp] theorem read_write_same (m : Memory) (i : Nat) (b : Byte) : (m.write i b).read i = some b := by
  induction m with
  | nil => simp [Memory.write, Memory.read]
  | cons c m ih =>
    unfold Memory.write
    split
    · simp [Memory.read]
    · split
      · simp [Memory.read]
      · rename_i _ h
        simp [Memory.read, h, ih]

/-- A write leaves every other index alone. -/
theorem read_write_other (m : Memory) (i j : Nat) (b : Byte) (h : j ≠ i) :
    (m.write i b).read j = m.read j := by
  induction m with
  | nil => simp [Memory.write, Memory.read, Ne.symm h]
  | cons c m ih =>
    unfold Memory.write
    split
    · simp [Memory.read, Ne.symm h]
    · split
      · rename_i _ hc
        simp [Memory.read, Ne.symm h, hc]
      · simp [Memory.read, ih]

/-- The indices a write lists are those listed before and the one written. -/
theorem mem_write_index (m : Memory) (i : Nat) (b : Byte) (c : Host.Cell) (h : c ∈ m.write i b) :
    c.1 = i ∨ c ∈ m := by
  induction m with
  | nil => simp_all [Memory.write]
  | cons d m ih =>
    unfold Memory.write at h
    split at h
    · rcases List.mem_cons.mp h with rfl | h
      · exact .inl rfl
      · exact .inr h
    · split at h
      · rcases List.mem_cons.mp h with rfl | h
        · exact .inl rfl
        · exact .inr (List.mem_cons_of_mem _ h)
      · rcases List.mem_cons.mp h with rfl | h
        · exact .inr List.mem_cons_self
        · exact (ih h).imp id (List.mem_cons_of_mem _)

/-- A write keeps the canonical form. -/
theorem write_wf (m : Memory) (i : Nat) (b : Byte) (h : m.wf) : (m.write i b).wf := by
  induction m with
  | nil => exact List.pairwise_singleton ..
  | cons c m ih =>
    obtain ⟨hc, hm⟩ := List.pairwise_cons.mp h
    unfold Memory.write
    split
    · rename_i hi
      refine List.pairwise_cons.mpr ⟨fun d hd => ?_, h⟩
      rcases List.mem_cons.mp hd with rfl | hd
      · exact hi
      · exact hi.trans (hc d hd)
    · split
      · rename_i _ hi
        exact List.pairwise_cons.mpr ⟨fun d hd => by simpa [← hi] using hc d hd, hm⟩
      · rename_i h1 h2
        refine List.pairwise_cons.mpr ⟨fun d hd => ?_, ih hm⟩
        rcases mem_write_index m i b d hd with h | hd
        · omega
        · exact hc d hd

/-- The memory after reset is in canonical form. -/
theorem resetWith_buf_wf (c : Config) : (State.resetWith c).rxBuf.wf := List.Pairwise.nil

end Sys2Proof.Machine
end

