-- ==== Sys2Proof/Laws/State.lean ====
section
/-! SUPPORT. One lemma for each field of each named update of the state, and the fields of a state after
reset. -/

namespace Sys2Proof.Machine

open Sys2Proof

section fields

variable (s : State) (n : Nat) (o : Bool) (r : Response) (e : Status)

@[simp] theorem setCursor_cfg : (s.setCursor n).cfg = s.cfg := rfl
@[simp] theorem setCursor_rxBuf : (s.setCursor n).rxBuf = s.rxBuf := rfl
@[simp] theorem setCursor_rxCursor : (s.setCursor n).rxCursor = n := rfl
@[simp] theorem setCursor_rxOverflowed : (s.setCursor n).rxOverflowed = s.rxOverflowed := rfl
@[simp] theorem setCursor_cmd : (s.setCursor n).cmd = s.cmd := rfl
@[simp] theorem setCursor_din : (s.setCursor n).din = s.din := rfl
@[simp] theorem setCursor_pending : (s.setCursor n).pending = s.pending := rfl
@[simp] theorem setCursor_responses : (s.setCursor n).responses = s.responses := rfl

@[simp] theorem setOverflowed_cfg : (s.setOverflowed o).cfg = s.cfg := rfl
@[simp] theorem setOverflowed_rxBuf : (s.setOverflowed o).rxBuf = s.rxBuf := rfl
@[simp] theorem setOverflowed_rxCursor : (s.setOverflowed o).rxCursor = s.rxCursor := rfl
@[simp] theorem setOverflowed_rxOverflowed : (s.setOverflowed o).rxOverflowed = o := rfl
@[simp] theorem setOverflowed_cmd : (s.setOverflowed o).cmd = s.cmd := rfl
@[simp] theorem setOverflowed_din : (s.setOverflowed o).din = s.din := rfl
@[simp] theorem setOverflowed_pending : (s.setOverflowed o).pending = s.pending := rfl
@[simp] theorem setOverflowed_responses : (s.setOverflowed o).responses = s.responses := rfl

@[simp] theorem respond_cfg : (s.respond r).cfg = s.cfg := rfl
@[simp] theorem respond_rxBuf : (s.respond r).rxBuf = s.rxBuf := rfl
@[simp] theorem respond_rxCursor : (s.respond r).rxCursor = s.rxCursor := rfl
@[simp] theorem respond_rxOverflowed : (s.respond r).rxOverflowed = s.rxOverflowed := rfl
@[simp] theorem respond_cmd : (s.respond r).cmd = s.cmd := rfl
@[simp] theorem respond_din : (s.respond r).din = s.din := rfl
@[simp] theorem respond_pending : (s.respond r).pending = s.pending := rfl
@[simp] theorem respond_responses : (s.respond r).responses = s.responses ++ [r] := rfl

/-- Raising a status is giving a response that carries it and nothing else (00_scope.md §5). -/
theorem raiseStatus_eq : s.raiseStatus e = s.respond { status := e.code } := rfl

@[simp] theorem setCursor_rxByte (i : Nat) : (s.setCursor n).rxByte i = s.rxByte i := rfl
@[simp] theorem setOverflowed_rxByte (i : Nat) : (s.setOverflowed o).rxByte i = s.rxByte i := rfl
@[simp] theorem respond_rxByte (i : Nat) : (s.respond r).rxByte i = s.rxByte i := rfl

@[simp] theorem respond_rxFrame : (s.respond r).rxFrame = s.rxFrame := rfl
@[simp] theorem setOverflowed_rxFrame : (s.setOverflowed o).rxFrame = s.rxFrame := rfl
@[simp] theorem setCursor_rxFrame : (s.setCursor n).rxFrame = s.rxBytes n := rfl

@[simp] theorem respond_marker : (s.respond r).marker = s.marker := rfl
@[simp] theorem setCursor_marker : (s.setCursor n).marker = s.marker := rfl
@[simp] theorem setOverflowed_marker : (s.setOverflowed o).marker = s.marker := rfl

@[simp] theorem respond_wire : (s.respond r).wire = s.wire ++ r.tx := by
  simp [State.wire]
@[simp] theorem respond_dispatched : (s.respond r).dispatched = s.dispatched ++ r.pkt.toList := by
  cases h : r.pkt <;> simp [State.dispatched, h]

end fields

section reset

variable (c : Config)

@[simp] theorem resetWith_cfg : (State.resetWith c).cfg = c := rfl
@[simp] theorem resetWith_rxBuf : (State.resetWith c).rxBuf = [] := rfl
@[simp] theorem resetWith_rxCursor : (State.resetWith c).rxCursor = 0 := rfl
@[simp] theorem resetWith_rxOverflowed : (State.resetWith c).rxOverflowed = false := rfl
@[simp] theorem resetWith_pending : (State.resetWith c).pending = [] := rfl
@[simp] theorem resetWith_responses : (State.resetWith c).responses = [] := rfl

end reset

/-- How many bytes a read of the buffer gives. -/
@[simp] theorem rxBytes_length (s : State) (n : Nat) : (s.rxBytes n).length = n := by
  simp [State.rxBytes]

/-- The cursor is the number of bytes held (10_state.md R16, R19). -/
@[simp] theorem rxFrame_length (s : State) : s.rxFrame.length = s.rxCursor := by
  simp [State.rxFrame]

/-- One byte more of the buffer. -/
theorem rxBytes_succ (s : State) (n : Nat) : s.rxBytes (n + 1) = s.rxBytes n ++ [s.rxByte n] := by
  simp [State.rxBytes, List.range_succ]

end Sys2Proof.Machine
end

