-- ==== Sys2Proof/Laws/Ops.lean ====
section
/-! SUPPORT. What each shared operation and each command can do, said once: if it answers a next state, one
of the cases listed holds. -/

namespace Sys2Proof.Machine

open Sys2Proof

variable {s t : State} {b : Byte} {i : Instr}

/-- A read inside the buffer gives its bytes. -/
theorem memRead_within {n : Nat} (h : n ≤ s.cfg.rxCapacity) : s.memRead n = .ok (s.rxBytes n) := by
  simp [State.memRead, h]

/-- A write inside the buffer stores its byte. -/
theorem memWrite_within {n : Nat} (h : n < s.cfg.rxCapacity) :
    s.memWrite n b = .ok { s with rxBuf := s.rxBuf.write n b } := by
  simp [State.memWrite, h]

/-- Everything ACCEPT of the marker can do (42_receiver.md R86 to R88). -/
theorem acceptMarker_cases (h : acceptMarker s = .ok t) :
    (s.rxOverflowed = true ∧ t = ((s.setOverflowed false).setCursor 0).respond { }) ∨
    (s.rxOverflowed = false ∧ s.rxCursor = 0 ∧ t = s.respond { }) ∨
    (s.rxOverflowed = false ∧ 0 < s.rxCursor ∧ s.rxCursor ≤ s.cfg.rxCapacity ∧
      t = (s.setCursor 0).respond { pkt := s.packetOf s.rxFrame }) := by
  unfold acceptMarker at h
  split at h
  · rename_i ho
    exact .inl ⟨ho, (Except.ok.inj h).symm⟩
  · rename_i ho
    have ho : s.rxOverflowed = false := by simpa using ho
    split at h
    · rename_i hc
      exact .inr (.inl ⟨ho, hc, (Except.ok.inj h).symm⟩)
    · rename_i hc
      by_cases hle : s.rxCursor ≤ s.cfg.rxCapacity
      · rw [memRead_within hle] at h
        exact .inr (.inr ⟨ho, Nat.pos_of_ne_zero hc, hle, (Except.ok.inj h).symm⟩)
      · simp [State.memRead, hle] at h

/-- Everything ACCEPT of a payload byte can do (42_receiver.md R89 to R91). -/
theorem acceptPayload_cases (h : acceptPayload b s = .ok t) :
    (s.rxOverflowed = true ∧ t = s.respond { }) ∨
    (s.rxOverflowed = false ∧ s.rxCursor = s.cfg.rxCapacity ∧
      t = ((s.setOverflowed true).setCursor 0).respond { }) ∨
    (s.rxOverflowed = false ∧ s.rxCursor < s.cfg.rxCapacity ∧
      t = (({ s with rxBuf := s.rxBuf.write s.rxCursor b } : State).setCursor
        (s.rxCursor + 1)).respond { }) := by
  unfold acceptPayload at h
  split at h
  · rename_i ho
    exact .inl ⟨ho, (Except.ok.inj h).symm⟩
  · rename_i ho
    have ho : s.rxOverflowed = false := by simpa using ho
    split at h
    · rename_i hc
      exact .inr (.inl ⟨ho, hc, (Except.ok.inj h).symm⟩)
    · by_cases hlt : s.rxCursor < s.cfg.rxCapacity
      · rw [memWrite_within hlt] at h
        exact .inr (.inr ⟨ho, hlt, (Except.ok.inj h).symm⟩)
      · simp [State.memWrite, hlt] at h

/-- ACCEPT answers next exactly as the receiver's case does. -/
theorem execAccept_next_iff :
    execAccept b s = .next t ↔
      (b = s.marker ∧ acceptMarker s = .ok t) ∨ (b ≠ s.marker ∧ acceptPayload b s = .ok t) := by
  unfold execAccept
  by_cases hb : b = s.marker
  · cases acceptMarker s <;> simp [hb]
  · cases acceptPayload b s <;> simp [hb]

/-- Everything SEND can do (43_sender.md R98, R99). -/
theorem execSend_cases (h : execSend s = .next t) :
    (s.cfg.maxPacketSize < s.din.length ∧ t = s.raiseStatus .packetTooLarge) ∨
    (s.din.length ≤ s.cfg.maxPacketSize ∧
      t = s.respond { tx := s.codecEncode s.din ++ [s.marker] }) := by
  unfold execSend State.packetTooLarge State.operand at h
  split at h <;> injection h with h <;> simp_all

/-- Everything ENCODE can do (44_codec_access.md R104). -/
theorem execEncode_cases (h : execEncode s = .next t) :
    (s.cfg.maxPacketSize < s.din.length ∧ t = s.raiseStatus .packetTooLarge) ∨
    (s.din.length ≤ s.cfg.maxPacketSize ∧ t = s.respond { data := s.codecEncode s.din }) := by
  unfold execEncode State.packetTooLarge State.operand at h
  split at h <;> injection h with h <;> simp_all

/-- Everything DECODE can do (44_codec_access.md R105). -/
theorem execDecode_cases (h : execDecode s = .next t) :
    (s.cfg.rxCapacity < s.din.length ∧ t = s.raiseStatus .frameTooLarge) ∨
    (s.din.length ≤ s.cfg.rxCapacity ∧ ∃ e, s.codecDecode s.din = .error e ∧
      t = s.raiseStatus e.status) ∨
    (s.din.length ≤ s.cfg.rxCapacity ∧ ∃ p, s.codecDecode s.din = .ok p ∧
      t = s.respond { data := p }) := by
  unfold execDecode State.frameTooLarge State.operand at h
  split at h
  · rename_i hl
    injection h with h
    exact .inl ⟨by simpa using hl, h.symm⟩
  · rename_i hl
    have hl : s.din.length ≤ s.cfg.rxCapacity := by simpa using hl
    split at h <;> rename_i x hx <;> injection h with h
    · exact .inr (.inl ⟨hl, x, hx, h.symm⟩)
    · exact .inr (.inr ⟨hl, x, hx, h.symm⟩)

/-- What taking the next transaction does, when there is one. -/
theorem takeCommand_cons {c : Command} {rest : List Command} (h : s.pending = c :: rest) :
    s.takeCommand = some { s with cmd := c.cmd, din := c.din, pending := rest } := by
  simp [State.takeCommand, h]

/-- Everything a step can do: it is idle, it runs the decoded command, or the word is illegal. -/
theorem step_cases (h : step s = .next t) :
    (s.pending = [] ∧ t = s) ∨
    ∃ (c : Command) (rest : List Command), s.pending = c :: rest ∧
      ((∃ i, decode c.cmd = .ok i ∧
          exec i { s with cmd := c.cmd, din := c.din, pending := rest } = .next t) ∨
       (∃ e, decode c.cmd = .error e ∧
          t = ({ s with cmd := c.cmd, din := c.din, pending := rest } : State).raiseStatus
            .illegalCommand)) := by
  unfold step at h
  cases hp : s.pending with
  | nil =>
    rw [State.takeCommand, hp] at h
    injection h with h
    exact .inl ⟨rfl, h.symm⟩
  | cons c rest =>
    rw [takeCommand_cons hp] at h
    refine .inr ⟨c, rest, rfl, ?_⟩
    cases hd : decode c.cmd with
    | ok i => exact .inl ⟨i, rfl, by simpa [hd] using h⟩
    | error e =>
      refine .inr ⟨e, rfl, ?_⟩
      simp only [hd, illegalCommand] at h
      injection h with h
      exact h.symm

end Sys2Proof.Machine
end

