-- ==== Sys2Proof/Laws/PerInstr.lean ====
section
/-! SUPPORT. One lemma for each command and each family of statements about commands as words. -/

namespace Sys2Proof.Laws

open Sys2Proof

/-- The mask of the command's row in spec/opcode_table.json. -/
def tableMask : Instr → Word
  | .accept _ => 0xFF00
  | .send => 0xFFFF
  | .reset => 0xFFFF
  | .encode => 0xFFFF
  | .decode => 0xFFFF

/-- The match of the command's row in spec/opcode_table.json. -/
def tableMatch : Instr → Word
  | .accept _ => 0x1000
  | .send => 0x2000
  | .reset => 0x3000
  | .encode => 0x4000
  | .decode => 0x5000

/-- A command is well formed, and its encoding fits its row's mask and match. -/
def EncodingFitsTable.Statement (i : Instr) : Prop :=
  i.wf = true ∧ encode i &&& tableMask i = tableMatch i

theorem EncodingFitsTable.accept (b : Byte) : EncodingFitsTable.Statement (.accept b) := by
  refine ⟨rfl, ?_⟩
  revert b
  decide

theorem EncodingFitsTable.send : EncodingFitsTable.Statement .send := ⟨rfl, by decide⟩

theorem EncodingFitsTable.reset : EncodingFitsTable.Statement .reset := ⟨rfl, by decide⟩

theorem EncodingFitsTable.encode : EncodingFitsTable.Statement .encode := ⟨rfl, by decide⟩

theorem EncodingFitsTable.decode : EncodingFitsTable.Statement .decode := ⟨rfl, by decide⟩

end Sys2Proof.Laws
end

