-- ==== Sys2Proof/Laws/Step.lean ====
section
/-! SUPPORT. Runs: one step more, and that a run is the host's run of the machine. -/

namespace Sys2Proof.Machine

open Sys2Proof

@[simp] theorem run_zero (s : State) : run 0 s = .next s := rfl

/-- One step more at the front of a run. -/
theorem run_succ (k : Nat) (s : State) :
    run (k + 1) s =
      match step s with
      | .next t => run k t
      | .fault r => .fault r
      | .refused r => .refused r := rfl

/-- A run whose first step answers a next state goes on from there. -/
theorem run_succ_of_next {k : Nat} {s t : State} (h : step s = .next t) : run (k + 1) s = run k t := by
  simp [run_succ, h]

/-- A run in two parts. -/
theorem run_add {j : Nat} (k : Nat) {s t : State} (h : run j s = .next t) :
    run (j + k) s = run k t := by
  induction j generalizing s with
  | zero =>
    injection h with h
    simp [h]
  | succ j ih =>
    rw [Nat.succ_add]
    cases hs : step s with
    | next u =>
      rw [run_succ_of_next hs] at h ⊢
      exact ih h
    | fault r => simp [run_succ, hs] at h
    | refused r => simp [run_succ, hs] at h

/-- One step more at the front of the host's run, of any machine. -/
theorem core_run_succ (M : Host.Core) (k : Nat) (s : M.State) :
    M.run (k + 1) s =
      match M.step s with
      | .next t => M.run k t
      | .fault r => .fault r
      | .refused r => .refused r := rfl

/-- `run` is the host's run of the machine. -/
theorem run_eq_core_run (k : Nat) (s : State) : run k s = Host.Core.run Sys2Proof.core k s := by
  induction k generalizing s with
  | zero => rfl
  | succ k ih =>
    have h := core_run_succ Sys2Proof.core k s
    cases hs : step s with
    | next t =>
      have hs' : Sys2Proof.core.step s = .next t := hs
      rw [hs'] at h
      exact (run_succ_of_next hs).trans ((ih t).trans h.symm)
    | fault r =>
      have hs' : Sys2Proof.core.step s = .fault r := hs
      rw [hs'] at h
      have hr : run (k + 1) s = .fault r := by simp [run_succ, hs]
      exact hr.trans h.symm
    | refused r =>
      have hs' : Sys2Proof.core.step s = .refused r := hs
      rw [hs'] at h
      have hr : run (k + 1) s = .refused r := by simp [run_succ, hs]
      exact hr.trans h.symm

end Sys2Proof.Machine
end

