-- ==== Sys2Proof/Tests/Slice0.lean ====
section
/-! SUPPORT. The model's own tests: words written out from the encodings of 30_encoding.md, ill-formed terms
the checks refuse, vectors of 95_test_vectors.md, and for each statement with hypotheses a concrete state
and operands that meet them. -/

namespace Sys2Proof.Tests

open Sys2Proof Sys2Proof.Machine

/-! ### WellFormed -/

/-- `RX_CAPACITY ≥ 1` (R8, D28): a capacity of 0 is refused. -/
theorem test_wf_refuses_capacity_zero :
    ({ codec := .cobs, rxCapacity := 0, maxPacketSize := 4 } : Config).wf = false := by decide

theorem test_wf_accepts_smallest :
    ({ codec := .slip, rxCapacity := 1, maxPacketSize := 0 } : Config).wf = true := by decide

theorem test_codec_numbers :
    Codec.ofNumber 0 = some .cobs ∧ Codec.ofNumber 1 = some .slip ∧ Codec.ofNumber 2 = none ∧
    Codec.cobs.number = 0 ∧ Codec.slip.number = 1 := by decide

/-! ### Decode and encode (R47 to R51, 95_test_vectors.md §2.8) -/

theorem test_decode_accept : decode 0b0001000011011011#16 = .ok (.accept 0xDB) := by decide
theorem test_decode_send : decode 0b0010000000000000#16 = .ok .send := by decide
theorem test_decode_reset : decode 0b0011000000000000#16 = .ok .reset := by decide
theorem test_decode_encode : decode 0b0100000000000000#16 = .ok .encode := by decide
theorem test_decode_decode : decode 0b0101000000000000#16 = .ok .decode := by decide

/-- ILL-1 to ILL-8 of §2.8, each with the reason the table gives. -/
theorem test_decode_illegal :
    decode 0x0000 = .error .unknownOp ∧ decode 0x1100 = .error .reservedField ∧
    decode 0x3001 = .error .operandNotZero ∧ decode 0xF000 = .error .unknownOp ∧
    decode 0x2001 = .error .operandNotZero ∧ decode 0x5080 = .error .operandNotZero ∧
    decode 0x6000 = .error .unknownOp ∧ decode 0x1F00 = .error .reservedField := by decide

theorem test_encode_words :
    encode (.accept 0x33) = 0x1033 ∧ encode .send = 0x2000 ∧ encode .reset = 0x3000 ∧
    encode .encode = 0x4000 ∧ encode .decode = 0x5000 := by decide

theorem test_decodeTableWord :
    decodeTableWord 16 0x10C0 = some (.accept 0xC0) ∧ decodeTableWord 16 0x3001 = none := by decide

/-- R57: `ACCEPT 0x0F`, `SEND [C0 01]`, `.word 0xF00D`. -/
theorem test_print :
    (Asm.accept 0x0F).chars = ['A', 'C', 'C', 'E', 'P', 'T', ' ', '0', 'x', '0', 'F'] ∧
    (Asm.send [0xC0, 0x01]).chars = ['S', 'E', 'N', 'D', ' ', '[', 'C', '0', ' ', '0', '1', ']'] ∧
    (Asm.word 0xF00D).chars = ['.', 'w', 'o', 'r', 'd', ' ', '0', 'x', 'F', '0', '0', 'D'] := by decide

/-! ### The codecs (95_test_vectors.md §2.1 to §2.4) -/

/-- COBS-E1 to COBS-E6. -/
theorem test_cobs_encode :
    cobsEncode [] = [] ∧ cobsEncode [0x00] = [0x01, 0x01] ∧
    cobsEncode [0x00, 0x00] = [0x01, 0x01, 0x01] ∧
    cobsEncode [0x11, 0x22, 0x00, 0x33] = [0x03, 0x11, 0x22, 0x02, 0x33] ∧
    cobsEncode [0x11, 0x22, 0x33, 0x44] = [0x05, 0x11, 0x22, 0x33, 0x44] ∧
    cobsEncode [0x11, 0x00, 0x00, 0x00] = [0x02, 0x11, 0x01, 0x01, 0x01] := by decide

/-- COBS-E7: 254 non-zero bytes give a full run and the final empty run (D9). -/
theorem test_cobs_encode_full_run :
    cobsEncode (List.replicate 254 0x07) = 0xFF :: List.replicate 254 0x07 ++ [0x01] := by decide +kernel

/-- COBS-D2, D3, D4, D5, D6, D8, D9, D14. -/
theorem test_cobs_decode :
    (cobsDecode [0x01]).toOption = some [] ∧ (cobsDecode [0x01, 0x01]).toOption = some [0x00] ∧
    (cobsDecode [0x03, 0x11, 0x22, 0x02, 0x33]).toOption = some [0x11, 0x22, 0x00, 0x33] ∧
    cobsDecode [0x00] = .error .invalidLengthByte ∧ cobsDecode [0x02] = .error .truncated ∧
    cobsDecode [0x02, 0x11, 0x00] = .error .invalidLengthByte ∧
    (cobsDecode [0x02, 0x00]).toOption = some [0x00] ∧
    cobsDecode [0x03, 0x11, 0x00, 0x00] = .error .invalidLengthByte := by decide

/-- SLIP-E2, E3, E7. -/
theorem test_slip_encode :
    slipEncode [0x01, 0xC0, 0xDB, 0x02] = [0x01, 0xDB, 0xDC, 0xDB, 0xDD, 0x02] ∧
    slipEncode [0xDC, 0xDD] = [0xDC, 0xDD] ∧
    slipEncode [0xC0, 0xC0] = [0xDB, 0xDC, 0xDB, 0xDC] := by decide

/-- SLIP-D2, D3, D4, D5, D6, D10, D11. -/
theorem test_slip_decode :
    slipDecode [0xDB] = .error .truncated ∧ slipDecode [0xDB, 0x01] = .error .invalidEscape ∧
    slipDecode [0xDB, 0xDB, 0xDC] = .error .invalidEscape ∧
    (slipDecode [0xC0]).toOption = some [0xC0] ∧ slipDecode [0x01, 0xDB] = .error .truncated ∧
    (slipDecode [0xDB, 0xDC, 0xDB, 0xDD]).toOption = some [0xC0, 0xDB] ∧
    slipDecode [0xDB, 0xDB, 0xDB] = .error .invalidEscape := by decide

/-! ### One command on a small state -/

/-- An instance with capacity 4 and maximum packet size 4, the bytes `f` held, and `d` on `din`. -/
def small (c : Codec) (f : List Byte) (ovf : Bool) (d : List Byte) : State :=
  { State.resetWith { codec := c, rxCapacity := 4, maxPacketSize := 4 } with
    rxBuf := (List.range f.length).zip f
    rxCursor := f.length
    rxOverflowed := ovf
    din := d }

/-- The state an outcome holds, for tests. -/
def after (o : Host.Outcome State Fault Refusal) : Option State :=
  match o with
  | .next s => some s
  | .fault _ => none
  | .refused _ => none

/-- The last response in the state an outcome holds. -/
def answer (o : Host.Outcome State Fault Refusal) : Option Response :=
  (after o).bind fun s => s.responses.getLast?

/-- R85's example: from `rx_frame = [03 11 22]`, ACCEPT 0x00 dispatches `[11 22]`. -/
theorem test_accept_marker_dispatches :
    answer (exec (.accept 0x00) (small .cobs [0x03, 0x11, 0x22] false [])) =
      some { pkt := some [0x11, 0x22] } := by decide

/-- RX-C3 at its fifth byte: the buffer is full, so the receiver is overflowed with its cursor at 0. -/
theorem test_accept_overflows :
    (after (exec (.accept 0x44) (small .cobs [0x05, 0x11, 0x22, 0x33] false []))).map
      (fun s => (s.rxCursor, s.rxOverflowed)) = some (0, true) := by decide

/-- RX-C13: RESET while overflowed returns to Accumulating. -/
theorem test_reset_clears_overflowed :
    (after (exec .reset (small .cobs [] true []))).map (fun s => (s.rxCursor, s.rxOverflowed)) =
      some (0, false) := by decide

/-- SEND-2. -/
theorem test_send_cobs :
    answer (exec .send (small .cobs [] false [0x11, 0x00, 0x22])) =
      some { tx := [0x02, 0x11, 0x02, 0x22, 0x00] } := by decide

/-- SEND-10. -/
theorem test_send_slip_too_large :
    answer (exec .send (small .slip [] false [0x01, 0x02, 0x03, 0x04, 0x05])) =
      some { status := 0x01 } := by decide

/-- CA-3. -/
theorem test_encode_no_marker :
    answer (exec .encode (small .cobs [] false [0x01, 0x02, 0x03, 0x04])) =
      some { data := [0x05, 0x01, 0x02, 0x03, 0x04] } := by decide

/-- CA-13. -/
theorem test_encode_slip :
    answer (exec .encode (small .slip [] false [0xC0, 0xDB])) =
      some { data := [0xDB, 0xDC, 0xDB, 0xDD] } := by decide

/-- CA-11: the size check comes before the decode. -/
theorem test_decode_frame_too_large :
    answer (exec .decode (small .cobs [] false [0x05, 0x01, 0x02, 0x03, 0x04])) =
      some { status := 0x05 } := by decide

/-- CA-15. -/
theorem test_decode_invalid_escape :
    answer (exec .decode (small .slip [] false [0xDB, 0x01])) = some { status := 0x04 } := by decide

/-- Program P5 at its second command: an illegal word leaves the frame `[03]`. -/
theorem test_illegal_word :
    (after (step ({ small .cobs [0x03] false [] with
        pending := [{ cmd := 0x0000, din := [] }] } : State))).map
      (fun s => (s.rxFrame, s.responses)) = some ([0x03], [{ status := 0x06 }]) := by decide

/-- The word placed after reset is the one the next step runs. -/
theorem test_step_after_reset :
    answer (step (State.reset.withFetchWord 16 0x2000)) = some { tx := [0x00] } := by decide

/-! ### Witnesses: what the statements assume can be met -/

/-- A state in the middle of a frame meets the invariant. -/
theorem witness_inv : (small .cobs [0x03, 0x11] false []).Inv := by
  constructor <;> decide

/-- A state that is overflowed meets the invariant. -/
theorem witness_inv_overflowed : (small .slip [] true []).Inv := by
  constructor <;> decide

/-- One pending transaction, for the witnesses about a step. -/
def oneCommand (s : State) (w : Word) (d : List Byte) : State :=
  { s with pending := [{ cmd := w, din := d }] }

theorem witness_StepRunsTheDecodedCommand :
    (oneCommand State.reset 0x10FF []).pending = { cmd := 0x10FF, din := [] } :: [] ∧
    decode 0x10FF = .ok (.accept 0xFF) := by decide

/-- Each group of illegal words, at the ends of its range. -/
theorem witness_IllegalWordOnlyAnswersItsStatus :
    (oneCommand State.reset 0x0000 []).pending = { cmd := 0x0000, din := [] } :: [] ∧
    (0x0000#16).toNat / 4096 ∈ [0x0, 0x6, 0x7, 0x8, 0x9, 0xA, 0xB, 0xC, 0xD, 0xE, 0xF] ∧
    (0x6000#16).toNat / 4096 ∈ [0x0, 0x6, 0x7, 0x8, 0x9, 0xA, 0xB, 0xC, 0xD, 0xE, 0xF] ∧
    (0xFFFF#16).toNat / 4096 ∈ [0x0, 0x6, 0x7, 0x8, 0x9, 0xA, 0xB, 0xC, 0xD, 0xE, 0xF] ∧
    (0x1100#16).toNat / 256 % 16 ≠ 0 ∧ (0x1F00#16).toNat / 256 % 16 ≠ 0 ∧
    ((0x2001#16).toNat / 4096 ∈ [0x2, 0x3, 0x4, 0x5] ∧ (0x2001#16).toNat % 256 ≠ 0) ∧
    ((0x50FF#16).toNat / 4096 ∈ [0x2, 0x3, 0x4, 0x5] ∧ (0x50FF#16).toNat % 256 ≠ 0) := by decide

theorem witness_IdleStepKeepsEverything : State.reset.pending = [] := by decide

theorem witness_RunAnswersCommandsInOrder :
    (after (run 2 (oneCommand (small .cobs [0x03] false []) 0x1011 []))).isSome = true := by decide

/-- The first clause on ACCEPT, on RESET and on an illegal word; the second on any transaction. -/
theorem witness_DinIgnoredAndNotKept :
    decode 0x1011 = .ok (.accept 0x11) ∧ decode 0x3000 = .ok .reset ∧
    decode 0x0000 = .error .unknownOp ∧
    (after (step (oneCommand State.reset 0x1011 [0x01]))).isSome = true ∧
    (after (step (oneCommand State.reset 0x3000 [0x01]))).isSome = true ∧
    (after (step (oneCommand State.reset 0x0000 [0x01]))).isSome = true ∧
    (oneCommand State.reset 0x2000 [0x01]).pending ≠ [] := by decide

/-- Runs of 1, of 253 and of 254 bytes. -/
theorem witness_CobsEncoderRunByRun :
    ([0x07] : List Byte) ≠ [] ∧ ([0x07] : List Byte).length ≤ 253 ∧ 0x00#8 ∉ ([0x07] : List Byte) ∧
    (List.replicate 253 0x07#8).length ≤ 253 ∧ 0x00#8 ∉ List.replicate 253 0x07#8 ∧
    (List.replicate 254 0x07#8).length = 254 ∧ 0x00#8 ∉ List.replicate 254 0x07#8 := by
  decide +kernel

theorem witness_CobsEncodedLength :
    ([0x00] : List Byte) ≠ [] ∧ ([0x07] : List Byte) ≠ [] ∧ 0x00#8 ∉ ([0x07] : List Byte) := by decide

/-- A truncated block one byte short, an empty block, and the longest block. -/
theorem witness_CobsDecoderBlockByBlock :
    (0x02#8 ≠ 0x00#8 ∧ ([] : List Byte).length < (0x02#8).toNat - 1) ∧
    (0x01#8 ≠ 0x00#8 ∧ ([] : List Byte).length = (0x01#8).toNat - 1) ∧
    (0xFF#8 ≠ 0x00#8 ∧ (List.replicate 254 0x07#8).length = (0xFF#8).toNat - 1) := by decide +kernel

theorem witness_CobsZeroLengthByteOnlyFromDecode :
    0x00#8 ∉ ([0x02] : List Byte) ∧ (small .cobs [0x03, 0x11] false []).Inv ∧
    (small .cobs [0x03, 0x11] false []).cfg.codec = .cobs :=
  ⟨by decide, witness_inv, rfl⟩

theorem witness_CobsDecoderAcceptsMoreThanEncoded :
    (List.replicate 254 0x07#8).length = 254 ∧ cobsDecode [0x02, 0x11] = .ok [0x11] := by
  exact ⟨List.length_replicate, by decide⟩

theorem witness_CobsFirstErrorDecides :
    cobsDecode [0x02, 0x11] = .ok [0x11] ∧ 0x02#8 ≠ 0x00#8 ∧
    ([] : List Byte).length < (0x02#8).toNat - 1 := by decide

theorem witness_SlipEncoderByteByByte : 0xDC#8 ≠ 0xC0#8 ∧ 0xDC#8 ≠ 0xDB#8 := by decide

theorem witness_SlipEncodedLength :
    ∀ b ∈ ([0xC0, 0xDB] : List Byte), b = 0xC0#8 ∨ b = 0xDB#8 := by decide

/-- ESC after ESC, and a byte that is not ESC. -/
theorem witness_SlipDecoderCaseByCase :
    (0xDB#8 ≠ 0xDC#8 ∧ 0xDB#8 ≠ 0xDD#8) ∧ 0xDC#8 ≠ 0xDB#8 := by decide

theorem witness_SlipMarkerFreeRoundTripAndLength : slipDecode [0xDB, 0xDC] = .ok [0xC0] := by decide

/-- A frame that decodes, and for an escape the bytes next to the two that may follow it. -/
theorem witness_SlipFirstErrorDecides :
    slipDecode [0xDB, 0xDC] = .ok [0xC0] ∧ (0xDB#8 ≠ 0xDC#8 ∧ 0xDB#8 ≠ 0xDD#8) ∧
    (0xDE#8 ≠ 0xDC#8 ∧ 0xDE#8 ≠ 0xDD#8) := by decide

theorem witness_MarkerFollowsFromCodec :
    (small .cobs [] false []).cfg.codec = .cobs ∧ (small .slip [] false []).cfg.codec = .slip := by decide

theorem witness_AcceptIdleMarker :
    (small .cobs [] false []).rxCursor = 0 ∧ (small .cobs [] false []).rxOverflowed = false := by decide

/-- A full buffer that decodes, and one byte that does not. -/
theorem witness_AcceptCompletesFrame :
    (let s := small .cobs [0x04, 0x11, 0x22, 0x33] false []
     s.rxOverflowed = false ∧ 0 < s.rxCursor ∧ s.rxCursor = s.cfg.rxCapacity ∧
     s.codecDecode ((List.range s.rxCursor).map s.rxByte) = .ok [0x11, 0x22, 0x33]) ∧
    (let s := small .cobs [0x02] false []
     s.rxOverflowed = false ∧ s.rxCursor = 1 ∧ s.rxCursor ≤ s.cfg.rxCapacity ∧
     s.codecDecode ((List.range s.rxCursor).map s.rxByte) = .error .truncated) := by decide

theorem witness_AcceptEndsOversizedFrame : (small .cobs [] true []).rxOverflowed = true := by decide

/-- The first byte of a frame, and the last that fits. -/
theorem witness_AcceptAppendsPayloadByte :
    (let s := small .cobs [] false []
     0x11#8 ≠ s.marker ∧ s.rxOverflowed = false ∧ s.rxCursor < s.cfg.rxCapacity) ∧
    (let s := small .slip [0x01, 0x02, 0x03] false []
     0x00#8 ≠ s.marker ∧ s.rxOverflowed = false ∧ s.rxCursor + 1 = s.cfg.rxCapacity) := by decide

theorem witness_AcceptDetectsOverflow :
    let s := small .cobs [0x05, 0x11, 0x22, 0x33] false []
    0x44#8 ≠ s.marker ∧ s.rxOverflowed = false ∧ s.rxCursor = s.cfg.rxCapacity := by decide

theorem witness_AcceptDiscardsWhileOverflowed :
    0x55#8 ≠ (small .cobs [] true []).marker ∧ (small .cobs [] true []).rxOverflowed = true := by decide

/-- A byte that is stored, and a marker, for which nothing is. -/
theorem witness_AcceptFrame :
    (let s := small .cobs [0x03] false []
     (after (exec (.accept 0x11) s)).isSome = true ∧
     (0x11#8 ≠ s.marker ∧ s.rxOverflowed = false ∧ s.rxCursor < s.cfg.rxCapacity)) ∧
    (let s := small .cobs [0x03] false []
     (after (exec (.accept 0x00) s)).isSome = true ∧
     ¬(0x00#8 ≠ s.marker ∧ s.rxOverflowed = false ∧ s.rxCursor < s.cfg.rxCapacity)) := by decide

/-- Both sides of the condition where they meet: the cursor at the capacity, where ACCEPT completes, and one
above it, where both a payload byte and the marker fault; and there a command that is not ACCEPT. -/
theorem witness_OnlyAcceptOutsideBufferFaults :
    (let s := small .cobs [0x01, 0x02, 0x03, 0x04] false []
     s.rxOverflowed = false ∧ s.rxCursor = s.cfg.rxCapacity ∧
     (after (exec (.accept 0x11) s)).isSome = true) ∧
    (let s := small .cobs [0x01, 0x02, 0x03, 0x04, 0x05] false []
     s.rxOverflowed = false ∧ s.rxCursor = s.cfg.rxCapacity + 1 ∧
     exec (.accept 0x11) s = .fault .bufferIndexOutOfRange ∧
     exec (.accept 0x00) s = .fault .bufferIndexOutOfRange ∧
     (after (exec .reset s)).isSome = true) :=
  ⟨by decide, by decide, by decide, rfl, rfl, by decide⟩

theorem witness_DispatchOnlyFromCompletedFrame :
    (let s := small .cobs [0x02, 0x11] false []
     exec (.accept 0x00) s = .next ((s.setCursor 0).respond { pkt := some [0x11] })) ∧
    ([0x00] : List Byte) ≠ [] :=
  ⟨rfl, by decide⟩

theorem witness_ResetStateIsAtBoundary :
    (after (exec .reset (small .cobs [0x03, 0x11] false []))).isSome = true := by decide

/-- Exactly the maximum length, and one byte more. -/
theorem witness_SendEmitsFrameThenMarker :
    (let s := small .cobs [] false [0x01, 0x02, 0x03, 0x04]
     s.din.length = s.cfg.maxPacketSize) ∧
    (let s := small .cobs [] false [0x01, 0x02, 0x03, 0x04, 0x05]
     s.din.length = s.cfg.maxPacketSize + 1) := by decide

theorem witness_EmptyPacketIsLoneMarker :
    (small .slip [] false []).din = [] ∧
    (State.resetWith { codec := .slip, rxCapacity := 1, maxPacketSize := 0 }).cfg.codec =
      (small .slip [] false []).cfg.codec ∧
    (State.resetWith { codec := .slip, rxCapacity := 1, maxPacketSize := 0 }).atBoundary := by decide

theorem witness_SendWireLengthAndLoneMarker :
    (let s := small .cobs [] false [0x00]
     s.din.length ≤ s.cfg.maxPacketSize ∧ s.cfg.codec = .cobs ∧ s.din ≠ []) ∧
    (let s := small .cobs [] false []
     s.din.length ≤ s.cfg.maxPacketSize ∧ s.cfg.codec = .cobs ∧ s.din = []) ∧
    (let s := small .slip [] false [0xC0, 0xC0, 0xC0, 0xC0]
     s.din.length = s.cfg.maxPacketSize ∧ s.cfg.codec = .slip) := by decide

theorem witness_EncodeGivesFrameOnDout :
    (let s := small .cobs [] false [0x01, 0x02, 0x03, 0x04]
     s.din.length = s.cfg.maxPacketSize) ∧
    (let s := small .cobs [] false [0x01, 0x02, 0x03, 0x04, 0x05]
     s.din.length = s.cfg.maxPacketSize + 1) := by decide

/-- One byte more than the capacity, exactly the capacity, and each of the three errors. -/
theorem witness_DecodeGivesPacketOrStatus :
    (let s := small .cobs [] false [0x05, 0x01, 0x02, 0x03, 0x04]
     s.din.length = s.cfg.rxCapacity + 1) ∧
    (let s := small .cobs [] false [0x04, 0x01, 0x02, 0x03]
     s.din.length = s.cfg.rxCapacity ∧ s.codecDecode s.din = .ok [0x01, 0x02, 0x03]) ∧
    (let s := small .cobs [] false [0x00]
     s.din.length ≤ s.cfg.rxCapacity ∧ s.codecDecode s.din = .error .invalidLengthByte) ∧
    (let s := small .slip [] false [0xDB]
     s.din.length ≤ s.cfg.rxCapacity ∧ s.codecDecode s.din = .error .truncated) ∧
    (let s := small .slip [] false [0xDB, 0x01]
     s.din.length ≤ s.cfg.rxCapacity ∧ s.codecDecode s.din = .error .invalidEscape) := by decide

/-- Two states with different receivers. -/
theorem witness_SendPathIndependentOfReceiver :
    (small .cobs [0x03] false [0x01]).cfg = (small .cobs [] true [0x01]).cfg ∧
    (small .cobs [0x03] false [0x01]).din = (small .cobs [] true [0x01]).din ∧
    (small .cobs [0x03] false [0x01]).abs ≠ (small .cobs [] true [0x01]).abs := by decide

theorem witness_OnlyWriteIsOneByteAtCursor :
    let s := small .cobs [0x03] false []
    (after (exec (.accept 0x11) s)).map (fun t => t.rxBuf.read 1) = some (some 0x11) ∧
    s.rxBuf.read 1 = none := by decide

/-- RESET twice, ENCODE and DECODE, SEND twice, and a byte that fits twice, just. -/
theorem witness_EffectsOfRepeatedCommands :
    (after (exec .reset (small .cobs [0x03] false []))).bind (fun t => after (exec .reset t)) ≠ none ∧
    after (exec .encode (small .cobs [0x03] false [0x00])) ≠ none ∧
    after (exec .decode (small .cobs [0x03] false [0x00])) ≠ none ∧
    (after (exec .send (small .cobs [0x03] false [0x00]))).bind (fun t => after (exec .send t)) ≠ none ∧
    (let s := small .cobs [0x03, 0x11] false []
     0x22#8 ≠ s.marker ∧ s.rxOverflowed = false ∧ s.rxCursor + 2 = s.cfg.rxCapacity ∧
     (after (exec (.accept 0x22) s)).bind (fun t => after (exec (.accept 0x22) t)) ≠ none) := by decide

/-- The byte that overflows the buffer, and one while overflowed. -/
theorem witness_CursorInvariantKept :
    (let s := oneCommand (small .cobs [0x05, 0x11, 0x22, 0x33] false []) 0x1044 []
     s.rxCursor ≤ s.cfg.rxCapacity ∧
     (after (step s)).map (fun t => t.rxOverflowed) = some true) ∧
    (let s := oneCommand (small .cobs [] true []) 0x1044 []
     s.rxOverflowed = true ∧ s.rxCursor = 0 ∧ (after (step s)).isSome = true) := by decide

theorem witness_FailedCommandOnlyAnswers :
    let s := oneCommand (small .cobs [0x03] false []) 0x5000 [0x00]
    s.pending = { cmd := 0x5000, din := [0x00] } :: [] ∧
    (after (step s)).map (fun t => t.responses) = some (s.responses ++ [{ status := 0x02 }]) ∧
    (0x02#8 : Byte) ≠ 0x00 := by decide

/-- Every code of R108 occurs. -/
theorem witness_StatusCodesComeFromTheirCommands :
    (answer (step (oneCommand State.reset 0x3000 []))).map Response.status = some 0x00 ∧
    (answer (step (oneCommand State.reset 0x2000 (List.replicate 9 0x01)))).map Response.status =
      some 0x01 ∧
    (answer (step (oneCommand State.reset 0x5000 [0x00]))).map Response.status = some 0x02 ∧
    (answer (step (oneCommand State.reset 0x5000 [0x02]))).map Response.status = some 0x03 ∧
    (answer (step (oneCommand (small .slip [] false []) 0x5000 [0xDB, 0x01]))).map Response.status =
      some 0x04 ∧
    (answer (step (oneCommand State.reset 0x5000 (List.replicate 9 0x01)))).map Response.status =
      some 0x05 ∧
    (answer (step (oneCommand State.reset 0x6000 []))).map Response.status = some 0x06 := by decide

/-- Each clause: an illegal word, a packet and a frame too long, a frame that fails, and the marker and a
payload byte while overflowed. -/
theorem witness_PriorityWithinOneCommand :
    State.reset.rxCursor ≤ State.reset.cfg.rxCapacity ∧
    decode 0x3001 = .error .operandNotZero ∧
    (decode 0x2000 = .ok .send ∧ State.reset.cfg.maxPacketSize < (List.replicate 9 0x01#8).length) ∧
    (decode 0x5000 = .ok .decode ∧ State.reset.cfg.rxCapacity < (List.replicate 9 0x00#8).length) ∧
    (([0x00] : List Byte).length ≤ State.reset.cfg.rxCapacity ∧
      State.reset.codecDecode [0x00] = .error .invalidLengthByte) ∧
    (decode 0x1000 = .ok (.accept (small .cobs [] true []).marker) ∧
      (small .cobs [] true []).rxOverflowed = true) ∧
    (decode 0x1001 = .ok (.accept 0x01) ∧ 0x01#8 ≠ (small .cobs [] true []).marker) := by decide

theorem witness_InvariantHoldsAtReset :
    ({ codec := .slip, rxCapacity := 1, maxPacketSize := 0 } : Config).wf = true := by decide

theorem witness_StepKeepsInvariant :
    (small .cobs [0x03, 0x11] false []).Inv ∧
    (after (step (small .cobs [0x03, 0x11] false []))).isSome = true :=
  ⟨witness_inv, by decide⟩

theorem witness_EveryRunIsSafe : (small .slip [] true []).Inv := witness_inv_overflowed

/-- A state with transactions of three kinds still to come. -/
theorem witness_AbstractViewSimulates :
    let s := { small .cobs [0x03] false [] with pending := feed [0x11, 0x22] ++ [commandOf .reset []] }
    s.pending = feed [0x11, 0x22] ++ [commandOf .reset []] ∧ s.rxCursor ≤ s.cfg.rxCapacity := by decide

/-- Two states whose buffers differ above the cursor. -/
theorem witness_SameViewSameResponses :
    let s := (small .cobs [0x03, 0x11] false []).setCursor 1
    let u := small .cobs [0x03] false []
    s.cfg = u.cfg ∧ s.pending = u.pending ∧ s.rxOverflowed = u.rxOverflowed ∧ s.rxFrame = u.rxFrame ∧
    s.rxCursor ≤ s.cfg.rxCapacity ∧ s.rxBuf ≠ u.rxBuf ∧ (after (run 1 s)).isSome = true := by decide

theorem witness_FeedOfOneFrame :
    let s := { small .cobs [0x03] false [] with pending := feed ([0x11, 0x22] ++ [0x00]) ++ [] }
    s.rxCursor ≤ s.cfg.rxCapacity ∧ s.marker ∉ ([0x11, 0x22] : List Byte) ∧
    s.pending = feed ([0x11, 0x22] ++ [s.marker]) ++ [] := by decide

/-- Each clause: a packet whose frame just fits, the empty packet, a frame one byte too long, an overflowed
start, and a start in the middle of a frame where the whole just fits and where it is one byte too long. -/
theorem witness_StreamingEquivalence :
    (let s := small .cobs [] false []
     s.rxCursor ≤ s.cfg.rxCapacity ∧ s.atBoundary ∧
     ([0x11, 0x22, 0x33] : List Byte) ≠ [] ∧
     (s.codecEncode [0x11, 0x22, 0x33]).length = s.cfg.rxCapacity ∧
     (s.codecEncode [0x11, 0x22, 0x33, 0x44]).length = s.cfg.rxCapacity + 1) ∧
    (small .cobs [] true []).rxOverflowed = true ∧
    (let s := small .cobs [0x02, 0x11] false []
     s.rxOverflowed = false ∧ 0 < s.rxCursor ∧
     s.rxCursor + (s.codecEncode [0x11]).length = s.cfg.rxCapacity ∧
     s.rxCursor + (s.codecEncode [0x11, 0x22]).length = s.cfg.rxCapacity + 1) ∧
    (let s := { small .slip [] false [] with pending := feed ([0xDB, 0xDC] ++ [0xC0]) }
     s.pending = feed (s.codecEncode [0xC0] ++ [s.marker]) ++ []) := by decide

theorem witness_OverflowRecovery :
    let s := { small .cobs [] false [] with
      pending := feed ([0x05, 0x11, 0x22, 0x33, 0x44] ++ [0x00] ++ ([0x02, 0x11] ++ [0x00])) }
    s.atBoundary ∧ s.marker ∉ ([0x05, 0x11, 0x22, 0x33, 0x44] : List Byte) ∧
    s.cfg.rxCapacity + 1 = ([0x05, 0x11, 0x22, 0x33, 0x44] : List Byte).length ∧
    ([0x11] : List Byte) ≠ [] ∧ (s.codecEncode [0x11]).length ≤ s.cfg.rxCapacity ∧
    s.pending = feed ([0x05, 0x11, 0x22, 0x33, 0x44] ++ [s.marker] ++
      (s.codecEncode [0x11] ++ [s.marker])) ++ [] := by decide

/-- A marker that completes a frame, one while overflowed, and a run of two from a boundary. -/
theorem witness_MarkersLeaveBoundary :
    (after (exec (.accept 0x00) (small .cobs [0x03] false []))).isSome = true ∧
    (after (exec (.accept 0x00) (small .cobs [] true []))).isSome = true ∧
    (let s := { small .cobs [] false [] with pending := feed [0x00, 0x00] }
     s.rxCursor = 0 ∧ s.rxCursor ≤ s.cfg.rxCapacity ∧
     s.pending = feed (List.replicate (1 + 1) s.marker) ++ []) := by decide

/-- RX-C10: a stream joined in the middle of a frame, then a whole frame. -/
theorem witness_ResynchronisesAtFirstMarker :
    let s := { small .cobs [] false [] with
      pending := feed ([0x05, 0x11] ++ [0x00]) ++ (feed [0x03, 0x22, 0x33, 0x00] ++ []) }
    s.rxCursor ≤ s.cfg.rxCapacity ∧
    (∀ p ∈ ([[0x22, 0x33]] : List (List Byte)),
      p ≠ [] ∧ (s.codecEncode p).length ≤ s.cfg.rxCapacity) ∧
    s.pending = feed ([0x05, 0x11] ++ [s.marker]) ++
      (feed (([[0x22, 0x33]] : List (List Byte)).flatMap fun p => s.codecEncode p ++ [s.marker]) ++
        []) := by decide

/-- A frame that decodes, of exactly the capacity, and one that does not. -/
theorem witness_DecodeAgreesWithReceiver :
    let s := small .cobs [] false []
    s.atBoundary ∧ ([0x04, 0x11, 0x22, 0x33] : List Byte).length = s.cfg.rxCapacity ∧
    s.marker ∉ ([0x04, 0x11, 0x22, 0x33] : List Byte) ∧
    s.codecDecode [0x04, 0x11, 0x22, 0x33] = .ok [0x11, 0x22, 0x33] ∧
    ([0x02] : List Byte) ≠ [] ∧ s.marker ∉ ([0x02] : List Byte) ∧
    s.codecDecode [0x02] = .error .truncated := by decide

end Sys2Proof.Tests
end

section
/-! PROOFS. The statements of 00_scope.md: the dispatch of one step (R5) and the boundary marker (R7). -/

namespace Sys2Proof.Machine

open Sys2Proof

section
variable {s : State} {c : Command} {rest : List Command} {i : Instr}

/-- The `.ok` branch of `step`: the transaction is taken, then the decoded command runs (R22, R40). -/
theorem step_of_decode_ok (hp : s.pending = c :: rest) (hd : decode c.cmd = .ok i) :
    step s = exec i { s with cmd := c.cmd, din := c.din, pending := rest } := by
  simp only [step, takeCommand_cons hp, hd]

theorem marker_of_cobs (h : s.cfg.codec = .cobs) : s.marker = 0x00#8 :=
  congrArg Codec.marker h

theorem marker_of_slip (h : s.cfg.codec = .slip) : s.marker = 0xC0#8 :=
  congrArg Codec.marker h

end

/-- Settles O6: the transaction at the head of the list is taken, and its word selects the `.ok` branch. -/
theorem stepRunsTheDecodedCommand : Obligations.StepRunsTheDecodedCommand :=
  fun _ _ _ _ hp hd => step_of_decode_ok hp hd

/-- Settles O25, one codec at a time. -/
theorem markerFollowsFromCodec : Obligations.MarkerFollowsFromCodec :=
  fun _ => ⟨marker_of_cobs, marker_of_slip⟩

end Sys2Proof.Machine
end

section
/-! PROOFS. The rules of 10_state.md that every command obeys: its cursor and overflow flag (R16, R20), the
invariant, the abstract view (R19), and what no response can show (R30). First come the rules about single
operations, then what one command can do to the receiver, said once, then the statements. -/

namespace Sys2Proof.Machine

open Sys2Proof

/-! ### Command words placed by the host -/

section
variable (op : BitVec 4) (imm : Byte)

@[simp] theorem rsvField_encodeFields : rsvField (encodeFields op imm) = 0x0#4 :=
  (BitVec.extractLsb'_append_eq_of_le (le_refl 8)).trans BitVec.extractLsb'_append_eq_right

@[simp] theorem opField_encodeFields : opField (encodeFields op imm) = op :=
  (BitVec.extractLsb'_append_eq_of_le (by decide)).trans BitVec.extractLsb'_append_eq_left

@[simp] theorem immField_encodeFields : immField (encodeFields op imm) = imm :=
  BitVec.extractLsb'_append_eq_right

end

/-- The decoder gives an encoded command back (30_encoding.md R51). -/
theorem decode_encode (i : Instr) : decode (encode i) = .ok i := by
  cases i <;> simp [decode, encode, withoutOperand]

/-- A command word has 16 bits, so all of it counts. -/
theorem tableWord_toNat (w : Word) : tableWord 16 w.toNat = w := by
  simp [tableWord, Nat.mod_eq_of_lt w.isLt]

/-- Settles O9: the placed transaction is at the head of the list, and its word decodes to the command. -/
theorem placedWordRunsNext : Obligations.PlacedWordRunsNext := by
  intro s i
  have hd : decode (tableWord 16 (encode i).toNat) = .ok i := by
    rw [tableWord_toNat, decode_encode]
  have h := step_of_decode_ok (s := s.withFetchWord 16 (encode i).toNat) rfl hd
  simpa only [State.withFetchWord, tableWord_toNat] using h

/-! ### A byte stored in the buffer -/

section
variable (s : State) (b : Byte)

@[simp] theorem rxByte_write_same (i : Nat) :
    ({ s with rxBuf := s.rxBuf.write i b } : State).rxByte i = b := by
  simp [State.rxByte]

theorem rxByte_write_other {i j : Nat} (h : j ≠ i) :
    ({ s with rxBuf := s.rxBuf.write i b } : State).rxByte j = s.rxByte j := by
  simp [State.rxByte, read_write_other _ _ _ _ h]

/-- A write at `n` changes none of the bytes before it. -/
theorem rxBytes_write (n : Nat) :
    ({ s with rxBuf := s.rxBuf.write n b } : State).rxBytes n = s.rxBytes n :=
  List.map_congr_left fun _ hj => rxByte_write_other s b (List.mem_range.mp hj).ne

/-- Storing a byte at the cursor appends it to the frame in progress (42_receiver.md R89). -/
theorem rxFrame_append :
    (({ s with rxBuf := s.rxBuf.write s.rxCursor b } : State).setCursor (s.rxCursor + 1)).rxFrame =
      s.rxFrame ++ [b] := by
  rw [setCursor_rxFrame, rxBytes_succ, rxBytes_write, rxByte_write_same, State.rxFrame]

end

/-- The frame in progress is empty exactly at cursor 0. -/
theorem rxFrame_eq_nil_iff (s : State) : s.rxFrame = [] ↔ s.rxCursor = 0 := by
  rw [← List.length_eq_zero_iff, rxFrame_length]

/-! ### What one command can do -/

/-- What a command that answers `r` can do to the receiver (42_receiver.md R85 to R97): it keeps it, clears
it, finds the buffer full, or stores one payload byte. -/
inductive CommandEffect (s : State) (r : Response) : State → Prop
  | keep : CommandEffect s r (s.respond r)
  | clear : CommandEffect s r (((s.setCursor 0).setOverflowed false).respond r)
  | overflow (ho : s.rxOverflowed = false) (hfull : s.rxCursor = s.cfg.rxCapacity) :
      CommandEffect s r (((s.setCursor 0).setOverflowed true).respond r)
  | append (b : Byte) (hb : b ≠ s.marker) (ho : s.rxOverflowed = false)
      (hlt : s.rxCursor < s.cfg.rxCapacity) :
      CommandEffect s r ((({ s with rxBuf := s.rxBuf.write s.rxCursor b } : State).setCursor
        (s.rxCursor + 1)).respond r)

theorem setOverflowed_self {s : State} {o : Bool} (h : s.rxOverflowed = o) : s.setOverflowed o = s := by
  subst h
  rfl

/-- Every status of R108 has one of its codes. -/
theorem statusCode_legal (e : Status) : e.code ∈ legalStatusCodes := by
  cases e <;> decide

section
variable {s t : State} {b : Byte} {i : Instr}

theorem acceptMarker_effect (h : acceptMarker s = .ok t) :
    ∃ r : Response, r.status ∈ legalStatusCodes ∧ CommandEffect s r t := by
  obtain ⟨-, rfl⟩ | ⟨-, -, rfl⟩ | ⟨ho, -, -, rfl⟩ := acceptMarker_cases h
  · exact ⟨_, statusCode_legal .ok, .clear⟩
  · exact ⟨_, statusCode_legal .ok, .keep⟩
  · rw [← setOverflowed_self (s := s.setCursor 0) ho]
    exact ⟨_, statusCode_legal .ok, .clear⟩

theorem acceptPayload_effect (hb : b ≠ s.marker) (h : acceptPayload b s = .ok t) :
    ∃ r : Response, r.status ∈ legalStatusCodes ∧ CommandEffect s r t := by
  obtain ⟨-, rfl⟩ | ⟨ho, hfull, rfl⟩ | ⟨ho, hlt, rfl⟩ := acceptPayload_cases h
  · exact ⟨_, statusCode_legal .ok, .keep⟩
  · exact ⟨_, statusCode_legal .ok, .overflow ho hfull⟩
  · exact ⟨_, statusCode_legal .ok, .append b hb ho hlt⟩

/-- Every command gives one response with a legal status and has one of the four effects. -/
theorem exec_effect (h : exec i s = .next t) :
    ∃ r : Response, r.status ∈ legalStatusCodes ∧ CommandEffect s r t := by
  cases i with
  | accept b =>
    obtain ⟨-, h⟩ | ⟨hb, h⟩ := execAccept_next_iff.mp h
    · exact acceptMarker_effect h
    · exact acceptPayload_effect hb h
  | send =>
    obtain ⟨-, rfl⟩ | ⟨-, rfl⟩ := execSend_cases h
    · exact ⟨_, statusCode_legal .packetTooLarge, .keep⟩
    · exact ⟨_, statusCode_legal .ok, .keep⟩
  | reset =>
    cases h
    exact ⟨_, statusCode_legal .ok, .clear⟩
  | encode =>
    obtain ⟨-, rfl⟩ | ⟨-, rfl⟩ := execEncode_cases h
    · exact ⟨_, statusCode_legal .packetTooLarge, .keep⟩
    · exact ⟨_, statusCode_legal .ok, .keep⟩
  | decode =>
    obtain ⟨-, rfl⟩ | ⟨-, e, -, rfl⟩ | ⟨-, p, -, rfl⟩ := execDecode_cases h
    · exact ⟨_, statusCode_legal .frameTooLarge, .keep⟩
    · exact ⟨_, statusCode_legal e.status, .keep⟩
    · exact ⟨_, statusCode_legal .ok, .keep⟩

/-- A step is idle, or takes one transaction and has the effect of one command. -/
theorem step_effect (h : step s = .next t) :
    t = s ∨ ∃ (c : Command) (rest : List Command) (r : Response),
      s.pending = c :: rest ∧ r.status ∈ legalStatusCodes ∧
      CommandEffect { s with cmd := c.cmd, din := c.din, pending := rest } r t := by
  obtain ⟨-, rfl⟩ | ⟨c, rest, hp, ⟨i, -, hx⟩ | ⟨e, -, rfl⟩⟩ := step_cases h
  · exact .inl rfl
  · obtain ⟨r, hr, he⟩ := exec_effect hx
    exact .inr ⟨c, rest, r, hp, hr, he⟩
  · exact .inr ⟨c, rest, _, hp, statusCode_legal .illegalCommand, .keep⟩

namespace CommandEffect
variable {r : Response}

theorem cfg_eq (h : CommandEffect s r t) : t.cfg = s.cfg := by cases h <;> rfl

theorem pending_eq (h : CommandEffect s r t) : t.pending = s.pending := by cases h <;> rfl

/-- Where the cursor can be after one command (10_state.md R16). -/
theorem cursor_cases (h : CommandEffect s r t) :
    t.rxCursor = s.rxCursor ∨ t.rxCursor = 0 ∨
      (t.rxCursor = s.rxCursor + 1 ∧ s.rxOverflowed = false ∧ s.rxCursor < s.cfg.rxCapacity) := by
  cases h with
  | keep => exact .inl rfl
  | clear => exact .inr (.inl rfl)
  | overflow => exact .inr (.inl rfl)
  | append b hb ho hlt => exact .inr (.inr ⟨rfl, ho, hlt⟩)

theorem cursor_le (h : CommandEffect s r t) (hs : s.rxCursor ≤ s.cfg.rxCapacity) :
    t.rxCursor ≤ t.cfg.rxCapacity := by
  have hc := h.cursor_cases
  rw [h.cfg_eq]
  omega

/-- Only a full buffer sets the overflow flag, and the cursor is then 0 (10_state.md R20). -/
theorem cursor_of_overflowed (h : CommandEffect s r t) (hs : s.rxOverflowed = true → s.rxCursor = 0)
    (ht : t.rxOverflowed = true) : t.rxCursor = 0 := by
  cases h with
  | keep => exact hs ht
  | clear => rfl
  | overflow => rfl
  | append b hb ho hlt => exact absurd (ho.symm.trans ht) (by decide)

end CommandEffect

/-- A step keeps the cursor within the buffer (10_state.md R16). -/
theorem step_cursor_le (h : step s = .next t) (hs : s.rxCursor ≤ s.cfg.rxCapacity) :
    t.rxCursor ≤ t.cfg.rxCapacity := by
  obtain rfl | ⟨c, rest, r, -, -, he⟩ := step_effect h
  · exact hs
  · exact he.cursor_le hs

end

/-- Settles O45, from the four effects a command can have. -/
theorem cursorInvariantKept : Obligations.CursorInvariantKept := by
  intro s t h
  refine ⟨step_cursor_le h, ?_⟩
  obtain rfl | ⟨c, rest, r, -, -, he⟩ := step_effect h
  · exact ⟨.inl rfl, fun hs => ⟨hs, fun _ => rfl⟩⟩
  · have hc := he.cursor_cases
    refine ⟨hc.imp_right (.imp_right fun ⟨h1, ho, _⟩ => ⟨h1, ho⟩), fun hs =>
      ⟨he.cursor_of_overflowed hs, fun ho => ?_⟩⟩
    obtain hc | hc | ⟨-, hf, -⟩ := hc
    · exact hc
    · exact hc.trans (hs ho).symm
    · exact absurd (hf.symm.trans ho) (by decide)

/-! ### The invariant -/

namespace State.Inv
variable {s : State}

/-- The input ports and the host's list are no part of the invariant. -/
theorem take (h : s.Inv) (c : Command) (rest : List Command) :
    ({ s with cmd := c.cmd, din := c.din, pending := rest } : State).Inv where
  cfg_wf := h.cfg_wf
  cursor_le := h.cursor_le
  cursor_of_overflowed := h.cursor_of_overflowed
  buf_wf := h.buf_wf
  buf_within := h.buf_within
  frame_written := h.frame_written
  frame_marker_free := h.frame_marker_free
  status_legal := h.status_legal

theorem respond (h : s.Inv) {r : Response} (hr : r.status ∈ legalStatusCodes) :
    (s.respond r).Inv where
  cfg_wf := h.cfg_wf
  cursor_le := h.cursor_le
  cursor_of_overflowed := h.cursor_of_overflowed
  buf_wf := h.buf_wf
  buf_within := h.buf_within
  frame_written := h.frame_written
  frame_marker_free := h.frame_marker_free
  status_legal := List.forall_mem_append.mpr ⟨h.status_legal, List.forall_mem_singleton.mpr hr⟩

/-- At cursor 0 no frame is in progress, whatever the overflow flag says. -/
theorem restart (h : s.Inv) (o : Bool) : ((s.setCursor 0).setOverflowed o).Inv where
  cfg_wf := h.cfg_wf
  cursor_le := Nat.zero_le _
  cursor_of_overflowed _ := rfl
  buf_wf := h.buf_wf
  buf_within := h.buf_within
  frame_written _ hi := absurd hi (Nat.not_lt_zero _)
  frame_marker_free _ hi := absurd hi (Nat.not_lt_zero _)
  status_legal := h.status_legal

/-- A stored payload byte is written, is no marker, and leaves the bytes before it as they were. -/
theorem append (h : s.Inv) {b : Byte} (hb : b ≠ s.marker) (ho : s.rxOverflowed = false)
    (hlt : s.rxCursor < s.cfg.rxCapacity) :
    (({ s with rxBuf := s.rxBuf.write s.rxCursor b } : State).setCursor (s.rxCursor + 1)).Inv where
  cfg_wf := h.cfg_wf
  cursor_le := hlt
  cursor_of_overflowed ht := absurd (ho.symm.trans ht) (by decide)
  buf_wf := write_wf _ _ _ h.buf_wf
  buf_within c hc := by
    obtain hi | hc := mem_write_index _ _ _ _ hc
    · exact hi ▸ hlt
    · exact h.buf_within c hc
  frame_written i hi := by
    obtain hi | rfl := Nat.lt_succ_iff_lt_or_eq.mp hi
    · simpa [read_write_other _ _ _ _ hi.ne] using h.frame_written i hi
    · simp
  frame_marker_free i hi := by
    obtain hi | rfl := Nat.lt_succ_iff_lt_or_eq.mp hi
    · exact (rxByte_write_other s b hi.ne).trans_ne (h.frame_marker_free i hi)
    · exact (rxByte_write_same s b _).trans_ne hb
  status_legal := h.status_legal

/-- Every effect of a command keeps the invariant. -/
theorem of_effect {t : State} {r : Response} (h : s.Inv) (hr : r.status ∈ legalStatusCodes)
    (he : CommandEffect s r t) : t.Inv := by
  cases he with
  | keep => exact h.respond hr
  | clear => exact (h.restart false).respond hr
  | overflow => exact (h.restart true).respond hr
  | append b hb ho hlt => exact (h.append hb ho hlt).respond hr

end State.Inv

/-- Settles O50, from the four effects a command can have. -/
theorem stepKeepsInvariant : Obligations.StepKeepsInvariant := by
  intro s t hs h
  obtain rfl | ⟨c, rest, r, -, hr, he⟩ := step_effect h
  · exact hs
  · exact (hs.take c rest).of_effect hr he

/-! ### No command stops while the cursor is within the buffer -/

section
variable {s : State}

theorem acceptMarker_completes (h : s.rxCursor ≤ s.cfg.rxCapacity) : ∃ t, acceptMarker s = .ok t := by
  unfold acceptMarker
  split
  · exact ⟨_, rfl⟩
  · split
    · exact ⟨_, rfl⟩
    · rw [memRead_within h]
      exact ⟨_, rfl⟩

theorem acceptPayload_completes (b : Byte) (h : s.rxCursor ≤ s.cfg.rxCapacity) :
    ∃ t, acceptPayload b s = .ok t := by
  unfold acceptPayload
  split
  · exact ⟨_, rfl⟩
  · split
    · exact ⟨_, rfl⟩
    · rename_i hne
      rw [memWrite_within (Nat.lt_of_le_of_ne h hne)]
      exact ⟨_, rfl⟩

theorem exec_completes (i : Instr) (h : s.rxCursor ≤ s.cfg.rxCapacity) : ∃ t, exec i s = .next t := by
  cases i with
  | accept b =>
    by_cases hb : b = s.marker
    · exact (acceptMarker_completes h).imp fun t ht => execAccept_next_iff.mpr (.inl ⟨hb, ht⟩)
    · exact (acceptPayload_completes b h).imp fun t ht => execAccept_next_iff.mpr (.inr ⟨hb, ht⟩)
  | send =>
    simp only [exec, execSend]
    split <;> exact ⟨_, rfl⟩
  | reset => exact ⟨_, rfl⟩
  | encode =>
    simp only [exec, execEncode]
    split <;> exact ⟨_, rfl⟩
  | decode =>
    simp only [exec, execDecode]
    split
    · exact ⟨_, rfl⟩
    · split <;> exact ⟨_, rfl⟩

theorem step_idle (h : s.pending = []) : step s = .next s := by
  simp [step, State.takeCommand, h]

theorem step_of_decode_error {c : Command} {rest : List Command} {e : Illegal}
    (hp : s.pending = c :: rest) (hd : decode c.cmd = .error e) :
    step s = .next (({ s with cmd := c.cmd, din := c.din, pending := rest } : State).raiseStatus
      .illegalCommand) := by
  simp only [step, takeCommand_cons hp, hd, illegalCommand]

theorem step_completes (h : s.rxCursor ≤ s.cfg.rxCapacity) : ∃ t, step s = .next t := by
  cases hp : s.pending with
  | nil => exact ⟨s, step_idle hp⟩
  | cons c rest =>
    cases hd : decode c.cmd with
    | ok i =>
      rw [step_of_decode_ok hp hd]
      exact exec_completes i h
    | error e => exact ⟨_, step_of_decode_error hp hd⟩

end

/-! ### The abstract view of R19 -/

/-- `t` has the view `x.1` and has added the response `x.2` to those of `s`. -/
def AnswersAs (s t : State) (x : AbsReceiver × Response) : Prop :=
  t.abs = x.1 ∧ t.responses = s.responses ++ [x.2]

section
variable {s t : State} {b : Byte} {i : Instr} {c : Command}

/-- A command that only answers keeps the view. -/
theorem respond_answersAs {r : Response} {x : AbsReceiver × Response} (h : x = (s.abs, r)) :
    AnswersAs s (s.respond r) x := by
  subst h
  exact ⟨rfl, rfl⟩

theorem acceptMarker_answersAs (h : acceptMarker s = .ok t) :
    AnswersAs s t (absAccept s.cfg s.marker s.abs) := by
  have habs : absAccept s.cfg s.marker s.abs = ({ frame := [], overflowed := false },
      { pkt := if s.rxOverflowed = true ∨ s.rxFrame = [] then none else s.packetOf s.rxFrame }) :=
    if_pos rfl
  rw [habs]
  obtain ⟨ho, rfl⟩ | ⟨ho, hc, rfl⟩ | ⟨ho, hc, -, rfl⟩ := acceptMarker_cases h
  · exact ⟨rfl, by simp [ho]⟩
  · have hf := (rxFrame_eq_nil_iff s).mpr hc
    exact ⟨by simp [State.abs, ho, hf], by simp [hf]⟩
  · have hf := mt (rxFrame_eq_nil_iff s).mp hc.ne'
    exact ⟨by simp [State.abs, ho, State.rxBytes], by simp [ho, hf]⟩

theorem acceptPayload_answersAs (hb : b ≠ s.marker) (h : acceptPayload b s = .ok t) :
    AnswersAs s t (absAccept s.cfg b s.abs) := by
  have hm : b ≠ s.cfg.codec.marker := hb
  obtain ⟨ho, rfl⟩ | ⟨ho, hfull, rfl⟩ | ⟨ho, hlt, rfl⟩ := acceptPayload_cases h
  · simp [AnswersAs, absAccept, State.abs, hm, ho]
  · simp [AnswersAs, absAccept, State.abs, hm, ho, hfull, State.rxBytes]
  · have habs : absAccept s.cfg b s.abs =
        ({ frame := s.rxFrame ++ [b], overflowed := false }, { }) := by
      simp [absAccept, State.abs, hm, ho, hlt.ne]
    rw [habs]
    exact ⟨congrArg₂ AbsReceiver.mk (rxFrame_append s b) ho, rfl⟩

theorem execDecode_answersAs (h : execDecode s = .next t) (hd : decode c.cmd = .ok .decode)
    (hdin : c.din = s.din) : AnswersAs s t (absCommand s.cfg c s.abs) := by
  obtain ⟨hl, rfl⟩ | ⟨hl, e, he, rfl⟩ | ⟨hl, p, hp, rfl⟩ := execDecode_cases h
  · exact respond_answersAs (by simp [absCommand, hd, hdin, hl, Status.code])
  · have he : s.cfg.codec.decodeFrame s.din = .error e := he
    refine respond_answersAs ?_
    cases e <;> simp [absCommand, hd, hdin, hl.not_gt, he, DecodeError.status, Status.code]
  · have hp : s.cfg.codec.decodeFrame s.din = .ok p := hp
    exact respond_answersAs (by simp [absCommand, hd, hdin, hl.not_gt, hp])

/-- Each command does to the view, and answers, what the machine of R19 does. -/
theorem exec_answersAs (h : exec i s = .next t) (hd : decode c.cmd = .ok i) (hdin : c.din = s.din) :
    AnswersAs s t (absCommand s.cfg c s.abs) := by
  cases i with
  | accept b =>
    simp only [absCommand, hd]
    obtain ⟨rfl, hm⟩ | ⟨hb, hp⟩ := execAccept_next_iff.mp h
    · exact acceptMarker_answersAs hm
    · exact acceptPayload_answersAs hb hp
  | send =>
    obtain ⟨hl, rfl⟩ | ⟨hl, rfl⟩ := execSend_cases h
    · exact respond_answersAs (by simp [absCommand, hd, hdin, hl, Status.code])
    · exact respond_answersAs (by
        simp [absCommand, hd, hdin, hl.not_gt, State.codecEncode, State.marker])
  | reset =>
    cases h
    simp [AnswersAs, absCommand, hd, State.abs, State.rxBytes]
  | encode =>
    obtain ⟨hl, rfl⟩ | ⟨hl, rfl⟩ := execEncode_cases h
    · exact respond_answersAs (by simp [absCommand, hd, hdin, hl, Status.code])
    · exact respond_answersAs (by simp [absCommand, hd, hdin, hl.not_gt, State.codecEncode])
  | decode => exact execDecode_answersAs h hd hdin

/-- A step that takes a transaction does to the view, and answers, what the machine of R19 does. -/
theorem step_answersAs {rest : List Command} (hp : s.pending = c :: rest) (h : step s = .next t) :
    t.cfg = s.cfg ∧ t.pending = rest ∧ AnswersAs s t (absCommand s.cfg c s.abs) := by
  cases hd : decode c.cmd with
  | ok i =>
    rw [step_of_decode_ok hp hd] at h
    obtain ⟨r, -, he⟩ := exec_effect h
    have hans := exec_answersAs h hd rfl
    exact ⟨he.cfg_eq, he.pending_eq, hans⟩
  | error e =>
    rw [step_of_decode_error hp hd] at h
    cases h
    exact ⟨rfl, rfl, respond_answersAs (s := { s with cmd := c.cmd, din := c.din, pending := rest })
      (by simp only [absCommand, hd]; rfl)⟩

end

/-- `t` has the parameters of `s`, and the view and the added responses of the abstract machine after the
transactions `cs`. -/
structure Simulates (s : State) (cs : List Command) (t : State) : Prop where
  cfg_eq : t.cfg = s.cfg
  abs_eq : t.abs = (absRun s.cfg s.abs cs).1
  responses_eq : t.responses = s.responses ++ (absRun s.cfg s.abs cs).2

theorem Simulates.refl (s : State) : Simulates s [] s := ⟨rfl, rfl, (List.append_nil _).symm⟩

/-- One transaction more at the front. -/
theorem Simulates.cons {s u t : State} {c : Command} {cs : List Command} (hcfg : u.cfg = s.cfg)
    (hc : AnswersAs s u (absCommand s.cfg c s.abs)) (h : Simulates u cs t) :
    Simulates s (c :: cs) t := by
  obtain ⟨habs, hresp⟩ := hc
  obtain ⟨tcfg, tabs, tresp⟩ := h
  rw [hcfg, habs] at tabs tresp
  exact ⟨tcfg.trans hcfg, tabs, by rw [tresp, hresp, List.append_assoc]; rfl⟩

/-- A run of `k` steps completes and simulates the first `k` pending transactions, by induction on `k`: with
none pending a step is idle. -/
theorem run_simulates (k : Nat) (s : State) (hs : s.rxCursor ≤ s.cfg.rxCapacity) :
    ∃ t, run k s = .next t ∧ t.pending = s.pending.drop k ∧ t.rxCursor ≤ t.cfg.rxCapacity ∧
      Simulates s (s.pending.take k) t := by
  induction k generalizing s with
  | zero => exact ⟨s, rfl, rfl, hs, .refl s⟩
  | succ k ih =>
    cases hp : s.pending with
    | nil =>
      rw [run_succ_of_next (step_idle hp)]
      simpa [hp] using ih s hs
    | cons c rest =>
      obtain ⟨u, hu⟩ := step_completes hs
      obtain ⟨hcfg, rfl, hans⟩ := step_answersAs hp hu
      obtain ⟨t, hrun, hpend, hle, hsim⟩ := ih u (step_cursor_le hu hs)
      exact ⟨t, (run_succ_of_next hu).trans hrun, hpend, hle, hsim.cons hcfg hans⟩

/-- Settles O52: the run over all of `cs` simulates exactly `cs`. -/
theorem abstractViewSimulates : Obligations.AbstractViewSimulates := by
  intro s cs rest hp hs
  obtain ⟨t, hrun, hpend, hle, hsim⟩ := run_simulates cs.length s hs
  rw [hp, List.drop_left] at hpend
  rw [hp, List.take_left] at hsim
  have hlen : t.abs.frame.length = t.rxCursor := rxFrame_length t
  exact ⟨t, hrun, hpend, hsim.cfg_eq, hsim.abs_eq, hlen.symm, hlen.trans_le hle, hsim.responses_eq⟩

/-- Settles O53: both runs simulate the same abstract run, for the abstract machine sees only the view. -/
theorem sameViewSameResponses : Obligations.SameViewSameResponses := by
  intro k s u t hcfg hp ho hf hs hrun
  have habs : s.abs = u.abs := by simp only [State.abs, hf, ho]
  have hu : u.rxCursor ≤ u.cfg.rxCapacity := by
    rwa [← hcfg, ← rxFrame_length u, ← hf, rxFrame_length]
  obtain ⟨t', hrun', -, -, hst⟩ := run_simulates k s hs
  obtain ⟨v, hv, -, -, huv⟩ := run_simulates k u hu
  cases hrun.symm.trans hrun'
  have habsRun : absRun u.cfg u.abs (u.pending.take k) = absRun s.cfg s.abs (s.pending.take k) := by
    rw [hcfg, hp, habs]
  have hview : t.abs = v.abs := by rw [hst.abs_eq, huv.abs_eq, habsRun]
  exact ⟨v, _, hv, hst.responses_eq, by rw [huv.responses_eq, habsRun],
    congrArg AbsReceiver.frame hview, congrArg AbsReceiver.overflowed hview⟩

end Sys2Proof.Machine
end

section
/-! PROOFS. The statements of 20_memory.md: the only write to the buffer (R36), what a repeated command does
(R38), and the order of transactions and responses (R40 to R42). -/

namespace Sys2Proof.Machine

open Sys2Proof

section
variable {s t u : State} {b : Byte} {i : Instr}

/-! ### Commands that only answer -/

/-- SEND, ENCODE and DECODE only answer (43_sender.md R102), with the response the machine of R19 gives. -/
theorem exec_answering_eq (hi : i ∈ [Instr.send, .encode, .decode]) (s : State) :
    exec i s =
      .next (s.respond (absCommand s.cfg { cmd := encode i, din := s.din } s.abs).2) := by
  obtain rfl | rfl | rfl : i = .send ∨ i = .encode ∨ i = .decode := by simpa using hi
  · by_cases hl : s.cfg.maxPacketSize < s.din.length <;>
      simp [exec, execSend, absCommand, decode_encode, State.packetTooLarge, State.operand, hl,
        raiseStatus_eq, Status.code, State.codecEncode, State.marker]
  · by_cases hl : s.cfg.maxPacketSize < s.din.length <;>
      simp [exec, execEncode, absCommand, decode_encode, State.packetTooLarge, State.operand, hl,
        raiseStatus_eq, Status.code, State.codecEncode]
  · by_cases hl : s.cfg.rxCapacity < s.din.length
    · simp [exec, execDecode, absCommand, decode_encode, State.frameTooLarge, State.operand, hl,
        raiseStatus_eq, Status.code]
    · rcases hx : s.cfg.codec.decodeFrame s.din with (_ | _ | _) | p <;>
        simp [exec, execDecode, absCommand, decode_encode, State.frameTooLarge, State.operand, hl,
          raiseStatus_eq, State.codecDecode, hx, DecodeError.status, Status.code]

/-- What SEND, ENCODE or DECODE leaves is the old state with one more response. -/
theorem eq_respond_of_exec_answering (hi : i ∈ [Instr.send, .encode, .decode])
    (h : exec i s = .next t) : ∃ r : Response, t = s.respond r := by
  cases h.symm.trans (exec_answering_eq hi s)
  exact ⟨_, rfl⟩

/-! ### The only write to the buffer (R36) -/

/-- A command leaves the buffer as it is, or is ACCEPT and writes its byte at the cursor. -/
theorem exec_rxBuf_cases (h : exec i s = .next t) :
    t.rxBuf = s.rxBuf ∨
      ∃ b, i = .accept b ∧ s.rxCursor < s.cfg.rxCapacity ∧
        t.rxBuf = s.rxBuf.write s.rxCursor b := by
  cases i with
  | accept b =>
    obtain ⟨-, h⟩ | ⟨-, h⟩ := execAccept_next_iff.mp h
    · obtain ⟨-, rfl⟩ | ⟨-, -, rfl⟩ | ⟨-, -, -, rfl⟩ := acceptMarker_cases h <;> exact .inl rfl
    · obtain ⟨-, rfl⟩ | ⟨-, -, rfl⟩ | ⟨-, hlt, rfl⟩ := acceptPayload_cases h
      · exact .inl rfl
      · exact .inl rfl
      · exact .inr ⟨b, rfl, hlt, rfl⟩
  | reset =>
    cases h
    exact .inl rfl
  | send | encode | decode =>
    obtain ⟨r, rfl⟩ := eq_respond_of_exec_answering (by simp) h
    exact .inl rfl

/-- Settles O43: where the command writes, a read at any index but the cursor is as before. -/
theorem onlyWriteIsOneByteAtCursor : Obligations.OnlyWriteIsOneByteAtCursor := by
  intro i s t h j hj
  obtain hbuf | ⟨b, hi, hlt, hbuf⟩ := exec_rxBuf_cases h
  · exact absurd (congrArg (Memory.read · j) hbuf) hj
  · rw [hbuf] at hj ⊢
    have hjc : j = s.rxCursor := not_imp_comm.mp (read_write_other s.rxBuf s.rxCursor j b) hj
    subst hjc
    exact ⟨rfl, hlt, b, hi, read_write_same _ _ _⟩

/-! ### Repeated commands (R38) -/

/-- The payload byte that fits is stored at the cursor (42_receiver.md R89). -/
theorem exec_accept_of_fits (hb : b ≠ s.marker) (ho : s.rxOverflowed = false)
    (hlt : s.rxCursor < s.cfg.rxCapacity) :
    exec (.accept b) s = .next ((({ s with rxBuf := s.rxBuf.write s.rxCursor b } : State).setCursor
      (s.rxCursor + 1)).respond { }) := by
  refine execAccept_next_iff.mpr (.inr ⟨hb, ?_⟩)
  simp [acceptPayload, ho, hlt.ne, memWrite_within hlt]

/-- The second RESET finds the cursor and the overflow flag cleared. -/
theorem reset_reset_eq (ht : exec .reset s = .next t) (hu : exec .reset t = .next u) :
    u = { t with responses := u.responses } := by
  cases ht
  cases hu
  rfl

/-- The first SEND changes nothing the second one reads, so both give the same response. -/
theorem send_send_eq (ht : exec .send s = .next t) (hu : exec .send t = .next u) :
    ∃ r : Response, t = s.respond r ∧ u = (s.respond r).respond r := by
  cases ht.symm.trans (exec_answering_eq (by simp) s)
  cases hu.symm.trans (exec_answering_eq (by simp) _)
  exact ⟨_, rfl, rfl⟩

/-- The first byte leaves the marker and the overflow flag as they are, and the cursor one higher, so the
second byte fits too. -/
theorem accept_accept_rxFrame (hb : b ≠ s.marker) (ho : s.rxOverflowed = false)
    (hroom : s.rxCursor + 2 ≤ s.cfg.rxCapacity) (ht : exec (.accept b) s = .next t)
    (hu : exec (.accept b) t = .next u) : u.rxFrame = s.rxFrame ++ [b, b] := by
  have hlt : s.rxCursor < s.cfg.rxCapacity := by omega
  cases ht.symm.trans (exec_accept_of_fits hb ho hlt)
  cases hu.symm.trans (exec_accept_of_fits hb ho hroom)
  rw [respond_rxFrame, rxFrame_append, respond_rxFrame, rxFrame_append, List.append_assoc]
  rfl

/-- Settles O44, one command at a time. -/
theorem effectsOfRepeatedCommands : Obligations.EffectsOfRepeatedCommands := by
  refine ⟨fun s t u => reset_reset_eq, fun i hi s t h => ?_, fun s t u ht hu => ?_,
    fun s t u b => accept_accept_rxFrame⟩
  · obtain ⟨r, rfl⟩ := eq_respond_of_exec_answering (List.mem_cons_of_mem _ hi) h
    rfl
  · obtain ⟨r, rfl, rfl⟩ := send_send_eq ht hu
    exact ⟨rfl, r.tx, by simp, by simp⟩

end

/-! ### Runs that complete (R40 to R42) -/

section
variable {k : Nat} {s t : State}

/-- A run that completes has a first step, and the rest of it completes. -/
theorem exists_step_of_run_succ (h : run (k + 1) s = .next t) :
    ∃ u, step s = .next u ∧ run k u = .next t := by
  cases hs : step s with
  | next u => exact ⟨u, rfl, (run_succ_of_next hs).symm.trans h⟩
  | fault r => simp [run_succ, hs] at h
  | refused r => simp [run_succ, hs] at h

/-- A run that completes, from any state, has taken the first `k` pending transactions and simulates them. -/
theorem simulates_of_run (h : run k s = .next t) :
    t.pending = s.pending.drop k ∧ Simulates s (s.pending.take k) t := by
  induction k generalizing s with
  | zero =>
    cases h
    exact ⟨rfl, .refl _⟩
  | succ k ih =>
    obtain ⟨u, hu, hrun⟩ := exists_step_of_run_succ h
    cases hp : s.pending with
    | nil =>
      cases hu.symm.trans (step_idle hp)
      simpa [hp] using ih hrun
    | cons c rest =>
      obtain ⟨hcfg, rfl, hans⟩ := step_answersAs hp hu
      obtain ⟨hpend, hsim⟩ := ih hrun
      exact ⟨hpend, hsim.cons hcfg hans⟩

/-- One response for each transaction (20_memory.md R40). -/
theorem absRun_responses_length (c : Config) (a : AbsReceiver) (cs : List Command) :
    (absRun c a cs).2.length = cs.length := by
  induction cs generalizing a with
  | nil => rfl
  | cons t ts ih => exact congrArg (· + 1) (ih _)

/-- Added responses add their bytes to the wire, in order (20_memory.md R41). -/
theorem wire_of_responses {rs : List Response} (h : t.responses = s.responses ++ rs) :
    t.wire = s.wire ++ rs.flatMap Response.tx := by
  simp [State.wire, h]

/-- Added responses add their packets to those dispatched, in order (20_memory.md R42). -/
theorem dispatched_of_responses {rs : List Response} (h : t.responses = s.responses ++ rs) :
    t.dispatched = s.dispatched ++ rs.filterMap Response.pkt := by
  simp [State.dispatched, h]

/-- Settles O10: the added responses are those of the abstract run over the transactions taken. -/
theorem runAnswersCommandsInOrder : Obligations.RunAnswersCommandsInOrder := by
  intro k s t h
  obtain ⟨hpend, hsim⟩ := simulates_of_run h
  have hresp := hsim.responses_eq
  exact ⟨hpend, hsim.cfg_eq, _, by rw [absRun_responses_length, List.length_take], hresp,
    wire_of_responses hresp, dispatched_of_responses hresp⟩

end

end Sys2Proof.Machine
end

section
/-! PROOFS. The statements of 30_encoding.md: the command words (R47 to R52), the assembler's lines (R57,
R58), what is ignored on `din` (R53), and the illegal words (R54). First come the fields of a word. -/

namespace Sys2Proof.Machine

open Sys2Proof

/-! ### The fields of a word -/

section
variable (w : Word) (op : BitVec 4) (imm : Byte)

theorem opField_toNat : (opField w).toNat = w.toNat / 4096 := by
  rw [opField, BitVec.extractLsb'_toNat, Nat.shiftRight_eq_div_pow]
  omega

theorem rsvField_toNat : (rsvField w).toNat = w.toNat / 256 % 16 := by
  rw [rsvField, BitVec.extractLsb'_toNat, Nat.shiftRight_eq_div_pow]

theorem rsvField_eq_zero_iff : rsvField w = 0x0#4 ↔ w.toNat / 256 % 16 = 0 := by
  rw [← BitVec.toNat_inj, rsvField_toNat]
  rfl

theorem immField_toNat : (immField w).toNat = w.toNat % 256 := by
  rw [immField, BitVec.extractLsb'_toNat, Nat.shiftRight_zero]

theorem encodeFields_toNat : (encodeFields op imm).toNat = 4096 * op.toNat + imm.toNat := by
  have hop := opField_toNat (encodeFields op imm)
  have hrsv := (rsvField_eq_zero_iff _).mp (rsvField_encodeFields op imm)
  have himm := immField_toNat (encodeFields op imm)
  rw [opField_encodeFields] at hop
  rw [immField_encodeFields] at himm
  omega

end

section
variable {w : Word} {i : Instr}

/-- A word with `rsv = 0` is made of its other two fields (R47, R49). -/
theorem encodeFields_fields (h : rsvField w = 0x0#4) :
    encodeFields (opField w) (immField w) = w := by
  have hrsv := (rsvField_eq_zero_iff w).mp h
  apply BitVec.eq_of_toNat_eq
  rw [encodeFields_toNat, opField_toNat, immField_toNat]
  omega

/-! ### Decoder and encoder -/

theorem withoutOperand_eq_ok_iff {j : Instr} :
    withoutOperand w j = .ok i ↔ immField w = 0x00#8 ∧ j = i := by
  by_cases h : immField w = 0x00#8 <;> simp [withoutOperand, h]

/-- Each arm of the decoder that gives a command fixes all three fields of the word: the first
leaves `imm8` as ACCEPT's byte, the others ask for `imm8 = 0` (R50, R51). -/
theorem encode_of_decode (h : decode w = .ok i) : encode i = w := by
  unfold decode at h
  by_cases hr : rsvField w = 0x0#4
  · rw [if_neg (not_not_intro hr)] at h
    rw [← encodeFields_fields hr]
    split_ifs at h with h1 h2 h3 h4 h5
    · cases h
      rw [h1, encode]
    all_goals
      obtain ⟨himm, rfl⟩ := withoutOperand_eq_ok_iff.mp h
      simp [encode, *]
  · rw [if_pos hr] at h
    cases h

/-- The words that decode to a command are exactly its encoding. -/
theorem decode_eq_ok_iff : decode w = .ok i ↔ w = encode i :=
  ⟨fun h => (encode_of_decode h).symm, fun h => h ▸ decode_encode i⟩

end

theorem encode_injective : Function.Injective encode := fun i j h =>
  Except.ok.inj ((decode_encode i).symm.trans ((congrArg decode h).trans (decode_encode j)))

/-- Every command is legal with every operand (R50). -/
theorem instr_wf (i : Instr) : i.wf = true := by cases i <;> rfl

/-- Settles O1: a word is determined by its three fields, and each arm of the decoder fixes them. -/
theorem decodeIffEncode : Obligations.DecodeIffEncode := by
  intro w i
  rw [decode_eq_ok_iff, and_iff_right (instr_wf i)]

/-! ### The decoder on numbers, and the count of the legal words -/

section
variable (w : Word)

theorem opField_eq_ofNat_iff {n : Nat} (h : n < 16) :
    opField w = BitVec.ofNat 4 n ↔ w.toNat / 4096 = n := by
  rw [← BitVec.toNat_inj, opField_toNat, BitVec.toNat_ofNat, Nat.mod_eq_of_lt h]

theorem immField_eq_zero_iff : immField w = 0x00#8 ↔ w.toNat % 256 = 0 := by
  rw [← BitVec.toNat_inj, immField_toNat]
  rfl

theorem immField_eq_ofNat : immField w = BitVec.ofNat 8 (w.toNat % 256) := by
  rw [← immField_toNat, BitVec.ofNat_toNat, BitVec.setWidth_eq]

end

/-- All 260 commands, ACCEPT once for each byte. -/
def allCommands : List Instr :=
  [.send, .reset, .encode, .decode] ++ (List.finRange 256).map fun b => .accept (BitVec.ofFin b)

theorem mem_allCommands (i : Instr) : i ∈ allCommands := by
  cases i with
  | accept b => exact List.mem_append_right _ (List.mem_map.mpr ⟨b.toFin, List.mem_finRange _, rfl⟩)
  | send | reset | encode | decode => exact List.mem_append_left _ (by decide)

theorem accept_ofFin_injective :
    Function.Injective fun b : Fin (2 ^ 8) => Instr.accept (BitVec.ofFin b) := by
  intro a b h
  simpa using h

theorem nodup_allCommands : allCommands.Nodup := by
  refine List.Nodup.append (by decide) ((List.nodup_finRange 256).map accept_ofFin_injective) ?_
  intro i hi hj
  obtain ⟨b, -, rfl⟩ := List.mem_map.mp hj
  simp at hi

theorem length_allCommands : allCommands.length = 260 := by
  rw [allCommands, List.length_append, List.length_map, List.length_finRange]
  rfl

theorem mem_map_encode_iff (w : Word) :
    w ∈ allCommands.map encode ↔ ∃ i, decode w = .ok i := by
  rw [List.mem_map]
  exact exists_congr fun i =>
    (and_iff_right (mem_allCommands i)).trans (eq_comm.trans decode_eq_ok_iff.symm)

/-- The decoder of R51 on the fields of the word as numbers. -/
theorem decode_eq_number (w : Word) : decode w =
    if w.toNat / 256 % 16 ≠ 0 then .error .reservedField
    else if w.toNat / 4096 = 1 then .ok (.accept (BitVec.ofNat 8 (w.toNat % 256)))
    else if 2 ≤ w.toNat / 4096 ∧ w.toNat / 4096 ≤ 5 then
      if w.toNat % 256 ≠ 0 then .error .operandNotZero
      else .ok ([Instr.send, .reset, .encode, .decode].getD (w.toNat / 4096 - 2) .send)
    else .error .unknownOp := by
  simp (disch := decide) only [decode, withoutOperand, ne_eq, rsvField_eq_zero_iff,
    immField_eq_zero_iff, ← immField_eq_ofNat, opField_eq_ofNat_iff]
  generalize w.toNat / 4096 = op
  by_cases h25 : 2 ≤ op ∧ op ≤ 5
  · obtain ⟨h2, h5⟩ := h25
    interval_cases op <;> simp
  · rw [if_neg h25, if_neg (by omega : op ≠ 2), if_neg (by omega : op ≠ 3), if_neg (by omega : op ≠ 4),
      if_neg (by omega : op ≠ 5)]

/-- Settles O2: the legal words are the encodings of all commands, which differ from each other. -/
theorem decoderReadsFieldsWith260LegalWords : Obligations.DecoderReadsFieldsWith260LegalWords :=
  ⟨decode_eq_number, allCommands.map encode, nodup_allCommands.map encode_injective,
    (List.length_map _).trans length_allCommands, mem_map_encode_iff⟩

/-! ### The rows of the opcode table -/

section
variable (w : Word)

theorem opField_and (m : Word) : opField (w &&& m) = opField w &&& opField m :=
  BitVec.extractLsb'_and

theorem rsvField_and (m : Word) : rsvField (w &&& m) = rsvField w &&& rsvField m :=
  BitVec.extractLsb'_and

/-- The mask of ACCEPT's row keeps `op` and `rsv`, and its match asks for `0x1` and `0x0` there. -/
theorem accept_row_iff : (∃ b, decode w = .ok (.accept b)) ↔ w &&& 0xFF00#16 = 0x1000#16 := by
  constructor
  · rintro ⟨b, h⟩
    rw [decode_eq_ok_iff.mp h]
    exact (Laws.EncodingFitsTable.accept b).2
  · intro h
    have hop : opField w &&& 0xF#4 = 0x1#4 := (opField_and w 0xFF00#16).symm.trans (congrArg opField h)
    have hrsv : rsvField w &&& 0xF#4 = 0x0#4 :=
      (rsvField_and w 0xFF00#16).symm.trans (congrArg rsvField h)
    rw [show 0xF#4 = BitVec.allOnes 4 from rfl, BitVec.and_allOnes] at hop hrsv
    refine ⟨immField w, decode_eq_ok_iff.mpr ?_⟩
    rw [encode, ← hop, encodeFields_fields hrsv]

/-- A full mask keeps the whole word. -/
theorem full_mask_row_iff (i : Instr) : decode w = .ok i ↔ w &&& 0xFFFF#16 = encode i := by
  rw [show 0xFFFF#16 = BitVec.allOnes 16 from rfl, BitVec.and_allOnes, decode_eq_ok_iff]

end

/-- Settles O3: ACCEPT's row through the fields its mask keeps, the other rows through the full mask. -/
theorem opcodeTableRowsDecode : Obligations.OpcodeTableRowsDecode := fun w =>
  ⟨accept_row_iff w, full_mask_row_iff w .send, full_mask_row_iff w .reset,
    full_mask_row_iff w .encode, full_mask_row_iff w .decode⟩

/-- Settles O4: each legal word is the encoding of its command, and the decoder rejects the others. -/
theorem writtenOutWordsDecode : Obligations.WrittenOutWordsDecode :=
  ⟨decode_encode (.accept 0x00), decode_encode (.accept 0xFF), decode_encode (.accept 0xC0),
    decode_encode .send, decode_encode .reset, decode_encode .encode, decode_encode .decode,
    by decide⟩

/-! ### The assembler -/

theorem encode_accept_eq_ofNat (b : Byte) : encode (.accept b) = BitVec.ofNat 16 (0x1000 + b.toNat) := by
  apply BitVec.eq_of_toNat_eq
  have h : (encode (.accept b)).toNat = 0x1000 + b.toNat := encodeFields_toNat 0x1#4 b
  rw [← h, BitVec.ofNat_toNat, BitVec.setWidth_eq]

/-- Settles O5: ACCEPT's word is a number computed from its byte, the other words are fixed. -/
theorem assemblerLinesGiveTheirWords : Obligations.AssemblerLinesGiveTheirWords := by
  refine ⟨fun b => ?_, fun _ => rfl, rfl, fun _ => rfl, fun _ => rfl, fun _ => rfl,
    fun bs => List.map_eq_flatMap⟩
  rw [← encode_accept_eq_ofNat]
  rfl

/-! ### Illegal words -/

/-- Each word of the three groups of R54 meets an error arm of the decoder on numbers. -/
theorem decode_error_of_number {w : Word}
    (h : w.toNat / 4096 ∈ [0x0, 0x6, 0x7, 0x8, 0x9, 0xA, 0xB, 0xC, 0xD, 0xE, 0xF] ∨
      w.toNat / 256 % 16 ≠ 0 ∨ (w.toNat / 4096 ∈ [0x2, 0x3, 0x4, 0x5] ∧ w.toNat % 256 ≠ 0)) :
    ∃ e, decode w = .error e := by
  simp only [List.mem_cons, List.not_mem_nil, or_false] at h
  rw [decode_eq_number]
  split_ifs with hr h1 h25 hi
  · exact ⟨_, rfl⟩
  · omega
  · exact ⟨_, rfl⟩
  · omega
  · exact ⟨_, rfl⟩

/-- Settles O7: the word decodes to no command, so the step only answers. -/
theorem illegalWordOnlyAnswersItsStatus : Obligations.IllegalWordOnlyAnswersItsStatus := by
  intro s c rest hp h
  obtain ⟨e, he⟩ := decode_error_of_number h
  exact step_of_decode_error hp he

/-! ### What is on the input ports -/

section
variable {s : State} {b : Byte}

theorem acceptMarker_of_overflowed (ho : s.rxOverflowed = true) :
    acceptMarker s = .ok (((s.setOverflowed false).setCursor 0).respond { }) :=
  if_pos ho

theorem acceptMarker_of_idle (ho : s.rxOverflowed = false) (hc : s.rxCursor = 0) :
    acceptMarker s = .ok (s.respond { }) := by
  simp [acceptMarker, ho, hc]

theorem acceptMarker_of_frame (ho : s.rxOverflowed = false) (hc : 0 < s.rxCursor)
    (hle : s.rxCursor ≤ s.cfg.rxCapacity) :
    acceptMarker s = .ok ((s.setCursor 0).respond { pkt := s.packetOf s.rxFrame }) := by
  simp [acceptMarker, ho, hc.ne', memRead_within hle, State.rxFrame]

theorem acceptPayload_of_overflowed (ho : s.rxOverflowed = true) :
    acceptPayload b s = .ok (s.respond { }) :=
  if_pos ho

theorem acceptPayload_of_full (ho : s.rxOverflowed = false) (hfull : s.rxCursor = s.cfg.rxCapacity) :
    acceptPayload b s = .ok (((s.setOverflowed true).setCursor 0).respond { }) := by
  simp [acceptPayload, ho, hfull]

theorem acceptPayload_of_fits (ho : s.rxOverflowed = false) (hlt : s.rxCursor < s.cfg.rxCapacity) :
    acceptPayload b s = .ok ((({ s with rxBuf := s.rxBuf.write s.rxCursor b } : State).setCursor
      (s.rxCursor + 1)).respond { }) := by
  simp [acceptPayload, ho, hlt.ne, memWrite_within hlt]

end

/-- The state with another sequence on the port `din`. -/
def State.putDin (s : State) (d : List Byte) : State := { s with din := d }

section
variable {s t : State} {b : Byte} {i : Instr} (d : List Byte)

theorem acceptMarker_putDin (h : acceptMarker s = .ok t) :
    acceptMarker (s.putDin d) = .ok (t.putDin d) := by
  obtain ⟨ho, rfl⟩ | ⟨ho, hc, rfl⟩ | ⟨ho, hc, hle, rfl⟩ := acceptMarker_cases h
  · exact acceptMarker_of_overflowed (s := s.putDin d) ho
  · exact acceptMarker_of_idle (s := s.putDin d) ho hc
  · exact acceptMarker_of_frame (s := s.putDin d) ho hc hle

theorem acceptPayload_putDin (h : acceptPayload b s = .ok t) :
    acceptPayload b (s.putDin d) = .ok (t.putDin d) := by
  obtain ⟨ho, rfl⟩ | ⟨ho, hfull, rfl⟩ | ⟨ho, hlt, rfl⟩ := acceptPayload_cases h
  · exact acceptPayload_of_overflowed (s := s.putDin d) ho
  · exact acceptPayload_of_full (s := s.putDin d) ho hfull
  · exact acceptPayload_of_fits (s := s.putDin d) ho hlt

/-- ACCEPT and RESET do the same whatever is on `din`, and leave it there (R53). -/
theorem exec_putDin (hi : i = .reset ∨ ∃ b, i = .accept b) (h : exec i s = .next t) :
    exec i (s.putDin d) = .next (t.putDin d) := by
  obtain rfl | ⟨b, rfl⟩ := hi
  · cases h
    rfl
  · refine execAccept_next_iff.mpr ?_
    obtain ⟨hb, h⟩ | ⟨hb, h⟩ := execAccept_next_iff.mp h
    · exact .inl ⟨hb, acceptMarker_putDin d h⟩
    · exact .inr ⟨hb, acceptPayload_putDin d h⟩

end

theorem step_din_ignored {s t : State} {w : Word} {d : List Byte} (d' : List Byte)
    {rest : List Command} (hw : ∀ i, decode w = .ok i → i = .reset ∨ ∃ b, i = .accept b)
    (h : step { s with pending := { cmd := w, din := d } :: rest } = .next t) :
    step { s with pending := { cmd := w, din := d' } :: rest } = .next { t with din := d' } := by
  cases hd : decode w with
  | ok i =>
    have hstep (x : List Byte) :=
      step_of_decode_ok (s := { s with pending := { cmd := w, din := x } :: rest }) rfl hd
    rw [hstep] at h ⊢
    exact exec_putDin d' (hw i hd) h
  | error e =>
    have hstep (x : List Byte) :=
      step_of_decode_error (s := { s with pending := { cmd := w, din := x } :: rest }) rfl hd
    rw [hstep] at h ⊢
    cases h
    rfl

/-- Taking a transaction overwrites both ports, so a step does not see what they held. -/
theorem step_ports_not_kept {s : State} (w : Word) (d : List Byte) (hp : s.pending ≠ []) :
    step { s with cmd := w, din := d } = step s := by
  obtain ⟨c, rest, hp⟩ := List.exists_cons_of_ne_nil hp
  simp only [step, takeCommand_cons hp,
    takeCommand_cons (s := { s with cmd := w, din := d }) hp]

/-- Settles O11: the first clause one kind of word at a time, the second from the taking of a transaction. -/
theorem dinIgnoredAndNotKept : Obligations.DinIgnoredAndNotKept :=
  ⟨fun _ _ _ _ d' _ => step_din_ignored d', fun _ => step_ports_not_kept⟩

end Sys2Proof.Machine
end

section
/-! PROOFS. The statements of 40_cobs.md: the encoder (R60 to R65), the decoder (R66 to R72), and what ties
the two (R73, R74). Each loop has one induction principle of its own, with the bound the loop keeps, so that
a proof sees the encoder's four branches or the decoder's four kinds of frame and nothing of their code. -/

namespace Sys2Proof.Machine

open Sys2Proof

/-! ### The encoder's loop -/

/-- Induction along the loop of R60: the run in progress holds at most 253 bytes, for a 254th flushes it. -/
theorem cobsRun_induction {motive : (run p : List Byte) → run.length ≤ 253 → Prop}
    (nil : ∀ run h, motive run [] h)
    (zero : ∀ run p h, motive [] p (Nat.zero_le _) → motive run (0x00#8 :: p) h)
    (full : ∀ run b p h, b ≠ 0x00#8 → run.length = 253 → motive [] p (Nat.zero_le _) →
      motive run (b :: p) h)
    (grow : ∀ run b p h (h' : (run ++ [b]).length ≤ 253), b ≠ 0x00#8 → run.length ≠ 253 →
      motive (run ++ [b]) p h' → motive run (b :: p) h)
    (run p : List Byte) (h : run.length ≤ 253) : motive run p h := by
  induction p generalizing run with
  | nil => exact nil run h
  | cons b p ih =>
    by_cases hb : b = 0x00#8
    · subst hb
      exact zero run p h (ih [] _)
    · by_cases hfull : run.length = 253
      · exact full run b p h hb hfull (ih [] _)
      · have h' : (run ++ [b]).length ≤ 253 := by
          rw [List.length_append, List.length_singleton]
          omega
        exact grow run b p h h' hb hfull (ih _ h')

section
variable {run d p : List Byte} {b : Byte} {n : Nat}

/-- The length byte of a run that fits a block (R62). -/
theorem cobsLengthByte_toNat (h : n ≤ 254) : (BitVec.ofNat 8 (n + 1)).toNat = n + 1 := by
  rw [BitVec.toNat_ofNat]
  omega

theorem cobsLengthByte_ne_zero (h : n ≤ 254) : BitVec.ofNat 8 (n + 1) ≠ 0x00#8 := fun h0 =>
  absurd ((cobsLengthByte_toNat h).symm.trans (congrArg BitVec.toNat h0)) (Nat.succ_ne_zero n)

/-- The loop started anew: an empty rest still gives a final block (R63, D9). -/
theorem cobsEncodeFrom_empty_run (p : List Byte) :
    cobsEncodeFrom [] p = if p = [] then [0x01] else cobsEncode p := by
  split_ifs with h
  · subst h
    rfl
  · exact (cobsEncode_of_ne_nil h).symm

/-- Non-zero bytes that do not fill the run only make it longer. -/
theorem cobsEncodeFrom_append (hd : 0x00#8 ∉ d) (h : run.length + d.length ≤ 253) :
    cobsEncodeFrom run (d ++ p) = cobsEncodeFrom (run ++ d) p := by
  induction d generalizing run with
  | nil => simp
  | cons b d ih =>
    obtain ⟨hb, hd⟩ := not_or.mp (mt List.mem_cons.mpr hd)
    rw [List.length_cons] at h
    rw [List.cons_append, cobsEncodeFrom_grow _ _ _ (Ne.symm hb) (by omega),
      ih hd (by rw [List.length_append, List.length_singleton]; omega),
      List.append_assoc, List.singleton_append]

theorem cobsEncode_single_run (hne : d ≠ []) (h : d.length ≤ 253) (hd : 0x00#8 ∉ d) :
    cobsEncode d = cobsBlock d := by
  have hrun := cobsEncodeFrom_append (run := []) (p := []) hd (by simpa using h)
  rw [cobsEncode_of_ne_nil hne]
  simpa using hrun

theorem cobsEncode_run_zero (h : d.length ≤ 253) (hd : 0x00#8 ∉ d) :
    cobsEncode (d ++ 0x00#8 :: p) = cobsBlock d ++ cobsEncodeFrom [] p := by
  rw [cobsEncode_of_ne_nil (by simp), cobsEncodeFrom_append hd (by simpa using h),
    cobsEncodeFrom_zero, List.nil_append]

/-- The last of 254 non-zero bytes finds the other 253 in the run. -/
theorem cobsEncode_full_run (h : d.length = 254) (hd : 0x00#8 ∉ d) :
    cobsEncode (d ++ p) = cobsBlock d ++ cobsEncodeFrom [] p := by
  obtain rfl | ⟨run, b, rfl⟩ := List.eq_nil_or_concat' d
  · simp at h
  · have hlen : run.length = 253 := by simpa using h
    obtain ⟨hrun, hb⟩ : 0x00#8 ∉ run ∧ 0x00#8 ≠ b := by simpa using hd
    rw [cobsEncode_of_ne_nil (by simp), List.append_assoc,
      cobsEncodeFrom_append hrun (by simp [hlen]), List.nil_append, List.singleton_append,
      cobsEncodeFrom_full _ _ _ hb.symm hlen]

end

/-- Settles O12, one kind of first run at a time. -/
theorem cobsEncoderRunByRun : Obligations.CobsEncoderRunByRun := by
  refine ⟨cobsEncode_nil, fun d => cobsEncode_single_run, fun d p h hd => ?_, fun d p h hd => ?_⟩
  · rw [cobsEncode_run_zero h hd, cobsEncodeFrom_empty_run]
    rfl
  · rw [cobsEncode_full_run h hd, cobsEncodeFrom_empty_run, cobsBlock, h]

/-! ### No zero in the encoder's output (R64) -/

theorem zero_notMem_cobsBlock {run : List Byte} (h : run.length ≤ 254) (hrun : 0x00#8 ∉ run) :
    0x00#8 ∉ cobsBlock run :=
  mt List.mem_cons.mp (not_or.mpr ⟨(cobsLengthByte_ne_zero h).symm, hrun⟩)

theorem zero_notMem_cobsEncodeFrom {run : List Byte} (p : List Byte) (h : run.length ≤ 253)
    (hrun : 0x00#8 ∉ run) : 0x00#8 ∉ cobsEncodeFrom run p := by
  induction run, p, h using cobsRun_induction with
  | nil run h => exact zero_notMem_cobsBlock (by omega) hrun
  | zero run p h ih =>
    rw [cobsEncodeFrom_zero, List.mem_append, not_or]
    exact ⟨zero_notMem_cobsBlock (by omega) hrun, ih List.not_mem_nil⟩
  | full run b p h hb hlen ih =>
    rw [cobsEncodeFrom_full _ _ _ hb hlen, List.mem_append, not_or]
    exact ⟨zero_notMem_cobsBlock (by simp [hlen]) (by simp [hrun, hb.symm]), ih List.not_mem_nil⟩
  | grow run b p h h' hb hlen ih =>
    rw [cobsEncodeFrom_grow _ _ _ hb hlen]
    exact ih (by simp [hrun, hb.symm])

/-- Settles O13: the loop starts with the empty run. -/
theorem cobsOutputIsZeroFree : Obligations.CobsOutputIsZeroFree := by
  intro p
  by_cases hp : p = []
  · simp [hp]
  · rw [cobsEncode_of_ne_nil hp]
    exact zero_notMem_cobsEncodeFrom p (Nat.zero_le _) List.not_mem_nil

/-! ### The length of the encoder's output (R65) -/

section
variable {p : List Byte} {b : Byte} {n : Nat}

@[simp] theorem cobsFullRunsFrom_nil (n : Nat) : cobsFullRunsFrom n [] = 0 := rfl

@[simp] theorem cobsFullRunsFrom_zero (n : Nat) (p : List Byte) :
    cobsFullRunsFrom n (0x00#8 :: p) = cobsFullRunsFrom 0 p := if_pos rfl

theorem cobsFullRunsFrom_full (hb : b ≠ 0x00#8) (h : n = 253) :
    cobsFullRunsFrom n (b :: p) = 1 + cobsFullRunsFrom 0 p := by
  simp [cobsFullRunsFrom, hb, h, cobsRunLimit]

theorem cobsFullRunsFrom_grow (hb : b ≠ 0x00#8) (h : n ≠ 253) :
    cobsFullRunsFrom n (b :: p) = cobsFullRunsFrom (n + 1) p := by
  have : n + 1 ≠ cobsRunLimit := by simp only [cobsRunLimit]; omega
  simp [cobsFullRunsFrom, hb, this]

end

section
variable {run : List Byte} (p : List Byte)

/-- Each block adds its length byte, and a zero of the packet pays for that of its run. -/
theorem cobsEncodeFrom_length (h : run.length ≤ 253) : (cobsEncodeFrom run p).length =
    run.length + p.length + 1 + cobsFullRunsFrom run.length p := by
  induction run, p, h using cobsRun_induction with
  | nil run h => simp
  | zero run p h ih =>
    simp only [cobsEncodeFrom_zero, cobsFullRunsFrom_zero, List.length_append, cobsBlock_length, ih,
      List.length_cons, List.length_nil]
    omega
  | full run b p h hb hlen ih =>
    simp only [cobsEncodeFrom_full _ _ _ hb hlen, cobsFullRunsFrom_full hb hlen, List.length_append,
      cobsBlock_length, ih, List.length_cons, List.length_nil]
    omega
  | grow run b p h h' hb hlen ih =>
    rw [cobsEncodeFrom_grow _ _ _ hb hlen, cobsFullRunsFrom_grow hb hlen, ih, List.length_append,
      List.length_singleton, List.length_cons]
    omega

/-- A full run takes 254 bytes of the packet. -/
theorem mul_cobsFullRunsFrom_le (h : run.length ≤ 253) :
    254 * cobsFullRunsFrom run.length p ≤ run.length + p.length := by
  induction run, p, h using cobsRun_induction with
  | nil run h => simp
  | zero run p h ih =>
    rw [cobsFullRunsFrom_zero]
    simp only [List.length_nil, List.length_cons] at ih ⊢
    omega
  | full run b p h hb hlen ih =>
    rw [cobsFullRunsFrom_full hb hlen]
    simp only [List.length_nil, List.length_cons] at ih ⊢
    omega
  | grow run b p h h' hb hlen ih =>
    rw [cobsFullRunsFrom_grow hb hlen]
    rw [List.length_append, List.length_singleton] at ih
    rw [List.length_cons]
    omega

/-- Without a zero, every 254 bytes are a full run. -/
theorem cobsFullRunsFrom_of_zero_notMem (h : run.length ≤ 253) (hp : 0x00#8 ∉ p) :
    cobsFullRunsFrom run.length p = (run.length + p.length) / 254 := by
  induction run, p, h using cobsRun_induction with
  | nil run h =>
    rw [cobsFullRunsFrom_nil, List.length_nil]
    omega
  | zero run p h ih => exact absurd List.mem_cons_self hp
  | full run b p h hb hlen ih =>
    have ih := ih fun hz => hp (List.mem_cons_of_mem b hz)
    rw [List.length_nil] at ih
    rw [cobsFullRunsFrom_full hb hlen, ih, List.length_cons]
    omega
  | grow run b p h h' hb hlen ih =>
    have ih := ih fun hz => hp (List.mem_cons_of_mem b hz)
    rw [List.length_append, List.length_singleton] at ih
    rw [cobsFullRunsFrom_grow hb hlen, ih, List.length_cons]
    omega

end

section
variable {p : List Byte}

theorem cobsEncode_length (hp : p ≠ []) :
    (cobsEncode p).length = p.length + 1 + cobsFullRuns p := by
  rw [cobsEncode_of_ne_nil hp, cobsEncodeFrom_length p (Nat.zero_le _), List.length_nil, Nat.zero_add,
    cobsFullRuns]

theorem cobsFullRuns_le (p : List Byte) : cobsFullRuns p ≤ p.length / 254 := by
  have h := mul_cobsFullRunsFrom_le (run := []) p (Nat.zero_le _)
  rw [List.length_nil, Nat.zero_add] at h
  exact (Nat.le_div_iff_mul_le (by decide)).mpr ((Nat.mul_comm _ _).trans_le h)

theorem cobsFullRuns_of_zero_notMem (hz : 0x00#8 ∉ p) : cobsFullRuns p = p.length / 254 := by
  have h := cobsFullRunsFrom_of_zero_notMem (run := []) p (Nat.zero_le _) hz
  rwa [List.length_nil, Nat.zero_add] at h

end

/-- Settles O14, from the exact length and what the number of full runs can be. -/
theorem cobsEncodedLength : Obligations.CobsEncodedLength := by
  refine ⟨rfl, fun p hp => ⟨cobsEncode_length hp, cobsFullRuns_le p, ?_⟩, fun p hp hz => ?_⟩
  · have hle := cobsFullRuns_le p
    rw [cobsEncode_length hp]
    omega
  · rw [cobsEncode_length hp, cobsFullRuns_of_zero_notMem hz, Nat.add_right_comm]

/-! ### The decoder's blocks -/

/-- Induction along the blocks of a frame (R66): there is none, or the first length byte fails, or the bytes
it claims are there and a shorter frame follows. -/
theorem cobsFrame_induction {motive : List Byte → Prop}
    (nil : motive [])
    (zero : ∀ f, motive (0x00#8 :: f))
    (truncated : ∀ n f, n ≠ 0x00#8 → f.length < n.toNat - 1 → motive (n :: f))
    (block : ∀ n d f, n ≠ 0x00#8 → d.length = n.toNat - 1 → motive f → motive (n :: (d ++ f)))
    (f : List Byte) : motive f := by
  induction hk : f.length using Nat.strong_induction_on generalizing f with
  | _ k ih =>
    cases f with
    | nil => exact nil
    | cons n f =>
      by_cases hn : n = 0x00#8
      · subst hn
        exact zero f
      · by_cases hlen : f.length < n.toNat - 1
        · exact truncated n f hn hlen
        · have hshort : (f.drop (n.toNat - 1)).length < k := by
            rw [← hk, List.length_drop, List.length_cons]
            omega
          have hd : (f.take (n.toNat - 1)).length = n.toNat - 1 :=
            List.length_take_of_le (not_lt.mp hlen)
          rw [← List.take_append_drop (n.toNat - 1) f]
          exact block n _ _ hn hd (ih _ hshort _ rfl)

/-- What a block puts into the packet: its payload, and a zero if it is not full and the frame goes on
(R68, R69). -/
def cobsPayload (n : Byte) (d f : List Byte) : List Byte :=
  d ++ if n.toNat < 255 ∧ f ≠ [] then [0x00] else []

section
variable {n : Byte} {d f : List Byte}

@[simp] theorem cobsDecode_nil : cobsDecode [] = .ok [] := rfl

@[simp] theorem cobsDecode_zero (f : List Byte) :
    cobsDecode (0x00#8 :: f) = .error .invalidLengthByte := rfl

theorem cobsDecode_truncated (hn : n ≠ 0x00#8) (hf : f.length < n.toNat - 1) :
    cobsDecode (n :: f) = .error .truncated := by
  simp [cobsDecode, cobsDecodeFrom, hn, hf]

theorem cobsDecode_block (hn : n ≠ 0x00#8) (hd : d.length = n.toNat - 1) :
    cobsDecode (n :: (d ++ f)) = (cobsDecode f).map (cobsPayload n d f ++ ·) := by
  have hfuel : cobsDecodeFrom (d ++ f).length f = cobsDecode f :=
    cobsDecodeFrom_enough _ f (by simp)
  have hlen : ¬ (d ++ f).length < n.toNat - 1 := by simp [hd]
  rw [cobsDecode, List.length_cons, cobsDecodeFrom, if_neg hn, if_neg hlen, List.drop_left' hd,
    List.take_left' hd, hfuel]
  cases cobsDecode f <;> rfl

/-- The last block of a frame has no zero after it (R69). -/
theorem cobsDecode_last_block (hn : n ≠ 0x00#8) (hd : d.length = n.toNat - 1) :
    cobsDecode (n :: d) = .ok d := by
  have h := cobsDecode_block (f := []) hn hd
  simpa [cobsPayload, Except.map] using h

theorem cobsPayload_length_le (n : Byte) (d f : List Byte) :
    (cobsPayload n d f).length ≤ d.length + 1 := by
  rw [cobsPayload]
  split_ifs <;> simp

end

/-- Settles O15, one kind of first block at a time. -/
theorem cobsDecoderBlockByBlock : Obligations.CobsDecoderBlockByBlock := by
  refine ⟨cobsDecode_nil, cobsDecode_zero, fun n f => cobsDecode_truncated, fun n d f hn hd => ?_⟩
  rw [cobsDecode_block hn hd]
  cases cobsDecode f <;> rfl

/-! ### What the decoder makes of the encoder's output (R73) -/

section
variable {run f : List Byte}

/-- The decoder takes a block of the encoder off the frame. -/
theorem cobsDecode_cobsBlock_append (h : run.length ≤ 254) : cobsDecode (cobsBlock run ++ f) =
    (cobsDecode f).map (cobsPayload (BitVec.ofNat 8 (run.length + 1)) run f ++ ·) :=
  cobsDecode_block (cobsLengthByte_ne_zero h) (by rw [cobsLengthByte_toNat h, Nat.add_sub_cancel])

theorem cobsDecode_cobsBlock (h : run.length ≤ 254) : cobsDecode (cobsBlock run) = .ok run :=
  cobsDecode_last_block (cobsLengthByte_ne_zero h) (by rw [cobsLengthByte_toNat h, Nat.add_sub_cancel])

/-- A run ended by a zero gets the zero back. -/
theorem cobsPayload_of_short (h : run.length ≤ 253) (hf : f ≠ []) :
    cobsPayload (BitVec.ofNat 8 (run.length + 1)) run f = run ++ [0x00] := by
  rw [cobsPayload, cobsLengthByte_toNat (by omega), if_pos ⟨by omega, hf⟩]

/-- A run ended by its length gets none. -/
theorem cobsPayload_of_full (h : run.length = 254) :
    cobsPayload (BitVec.ofNat 8 (run.length + 1)) run f = run := by
  rw [cobsPayload, cobsLengthByte_toNat h.le, if_neg (by omega), List.append_nil]

/-- The encoder always emits a final block (R63). -/
theorem cobsEncodeFrom_ne_nil (p : List Byte) (h : run.length ≤ 253) : cobsEncodeFrom run p ≠ [] := by
  rw [← List.length_pos_iff, cobsEncodeFrom_length p h]
  omega

/-- From any point of the encoder's loop, the decoder gives back the run in progress and the rest. -/
theorem cobsDecode_cobsEncodeFrom (p : List Byte) (h : run.length ≤ 253) :
    cobsDecode (cobsEncodeFrom run p) = .ok (run ++ p) := by
  induction run, p, h using cobsRun_induction with
  | nil run h => rw [cobsEncodeFrom_nil, cobsDecode_cobsBlock (by omega), List.append_nil]
  | zero run p h ih =>
    rw [cobsEncodeFrom_zero, cobsDecode_cobsBlock_append (by omega), ih,
      cobsPayload_of_short h (cobsEncodeFrom_ne_nil p (Nat.zero_le _))]
    simp [Except.map]
  | full run b p h hb hlen ih =>
    have hfull : (run ++ [b]).length = 254 := by simp [hlen]
    rw [cobsEncodeFrom_full _ _ _ hb hlen, cobsDecode_cobsBlock_append hfull.le, ih,
      cobsPayload_of_full hfull]
    simp [Except.map]
  | grow run b p h h' hb hlen ih =>
    rw [cobsEncodeFrom_grow _ _ _ hb hlen, ih, List.append_assoc, List.singleton_append]

end

/-- Settles O18: the loop starts with the empty run. -/
theorem cobsRoundTrip : Obligations.CobsRoundTrip := by
  intro p
  by_cases hp : p = []
  · simp [hp]
  · rw [cobsEncode_of_ne_nil hp]
    exact cobsDecode_cobsEncodeFrom p (Nat.zero_le _)

/-! ### Frames the encoder does not produce (R67, R72, R74) -/

theorem cobsDecode_ne_invalidLengthByte (f : List Byte) (hf : 0x00#8 ∉ f) :
    cobsDecode f ≠ .error .invalidLengthByte := by
  induction f using cobsFrame_induction with
  | nil => simp
  | zero f => exact absurd List.mem_cons_self hf
  | truncated n f hn hlen => simp [cobsDecode_truncated hn hlen]
  | block n d f hn hd ih =>
    have ih := ih fun hz => hf (List.mem_cons_of_mem n (List.mem_append_right d hz))
    rw [cobsDecode_block hn hd]
    cases h : cobsDecode f with
    | ok p => simp [Except.map]
    | error e => simpa [Except.map, h] using ih

/-- A frame the receiver collects holds no marker (42_receiver.md R87). -/
theorem State.Inv.marker_notMem_rxFrame {s : State} (h : s.Inv) : s.marker ∉ s.rxFrame := by
  intro hm
  obtain ⟨i, hi, hb⟩ := List.mem_map.mp hm
  exact h.frame_marker_free i (List.mem_range.mp hi) hb

/-- Settles O16: with COBS the marker is the `0x00` that a collected frame does not hold. -/
theorem cobsZeroLengthByteOnlyFromDecode : Obligations.CobsZeroLengthByteOnlyFromDecode := by
  refine ⟨cobsDecode_zero, cobsDecode_ne_invalidLengthByte, fun s hs hc => ?_⟩
  exact cobsDecode_ne_invalidLengthByte _ (marker_of_cobs hc ▸ hs.marker_notMem_rxFrame)

/-- A block takes one length byte and puts at most one zero into the packet. -/
theorem length_le_of_cobsDecode (f p : List Byte) (h : cobsDecode f = .ok p) :
    p.length ≤ f.length := by
  induction f using cobsFrame_induction generalizing p with
  | nil =>
    cases h
    exact le_rfl
  | zero f => simp at h
  | truncated n f hn hlen => simp [cobsDecode_truncated hn hlen] at h
  | block n d f hn hd ih =>
    rw [cobsDecode_block hn hd] at h
    cases hf : cobsDecode f with
    | error e => simp [hf, Except.map] at h
    | ok q =>
      rw [hf] at h
      cases h
      have hq := ih q hf
      have hpay := cobsPayload_length_le n d f
      simp only [List.length_append, List.length_cons]
      omega

/-- What the encoder produced is what it makes of the decoded packet. -/
theorem cobsEncode_eq_of_cobsDecode {f p q : List Byte} (hf : cobsEncode q = f)
    (hp : cobsDecode f = .ok p) : cobsEncode p = f := by
  have hq : Except.ok q = Except.ok p := (cobsRoundTrip q).symm.trans (hf ▸ hp)
  cases hq
  exact hf

/-- One full block with no block after it: if it came from the encoder it would hold no zero, but then the
encoder gives one more block (R63). -/
theorem cobsEncode_ne_full_block {d : List Byte} (h : d.length = 254) (p : List Byte) :
    cobsEncode p ≠ 0xFF#8 :: d := by
  intro hp
  have hd : cobsEncode d = 0xFF#8 :: d :=
    cobsEncode_eq_of_cobsDecode hp (cobsDecode_last_block (by decide) h)
  have hz : 0x00#8 ∉ d := fun hz => cobsOutputIsZeroFree d (hd ▸ List.mem_cons_of_mem _ hz)
  have hne : d ≠ [] := by
    rintro rfl
    simp at h
  have hlen := cobsEncode_length hne
  rw [cobsFullRuns_of_zero_notMem hz, hd, List.length_cons, h] at hlen
  exact absurd hlen (by decide)

/-- Settles O17: a full block with and without a final empty block, two frames for one packet of which one
holds a zero, and the length along the blocks. -/
theorem cobsDecoderAcceptsMoreThanEncoded : Obligations.CobsDecoderAcceptsMoreThanEncoded := by
  refine ⟨fun d hd => ⟨cobsDecode_last_block (by decide) hd, ?_, cobsEncode_ne_full_block hd⟩,
    ⟨by decide, by decide, fun p hp => ?_⟩, length_le_of_cobsDecode⟩
  · have hlast : cobsDecode [0x01] = .ok [] := by decide
    rw [List.cons_append, cobsDecode_block (by decide) hd, hlast]
    simp [cobsPayload, Except.map]
  · exact cobsOutputIsZeroFree p (by simp [hp])

/-- After blocks that decode, the rest of the frame decides the error. -/
theorem cobsDecode_append_error {f p g : List Byte} {e : DecodeError} (hf : cobsDecode f = .ok p)
    (hg : cobsDecode g = .error e) : cobsDecode (f ++ g) = .error e := by
  induction f using cobsFrame_induction generalizing p with
  | nil => exact hg
  | zero f => simp at hf
  | truncated n f hn hlen => simp [cobsDecode_truncated hn hlen] at hf
  | block n d f hn hd ih =>
    rw [cobsDecode_block hn hd] at hf
    cases hq : cobsDecode f with
    | error e' => simp [hq, Except.map] at hf
    | ok q =>
      rw [List.cons_append, List.append_assoc, cobsDecode_block hn hd, ih hq]
      rfl

/-- Settles O19: both length bytes fail as the first of a frame. -/
theorem cobsFirstErrorDecides : Obligations.CobsFirstErrorDecides := fun _ _ g hf =>
  ⟨cobsDecode_append_error hf (cobsDecode_zero g), fun _ hn hg =>
    cobsDecode_append_error hf (cobsDecode_truncated hn hg)⟩

end Sys2Proof.Machine
end

section
/-! PROOFS. The statements of 41_slip.md: the encoder (R76 to R78), the decoder (R79 to R82), and what ties
the two (R83, R84). A packet's byte is of one of three kinds and a frame of one of five; each split is made
once, so that a proof sees the kinds and nothing of the code. -/

namespace Sys2Proof.Machine

open Sys2Proof

/-! ### The encoder on one byte -/

/-- The three kinds of byte R76 tells apart. -/
theorem slipByte_cases {motive : Byte → Prop}
    (literalEnd : motive slipEnd)
    (literalEsc : motive slipEsc)
    (plain : ∀ b, b ≠ slipEnd → b ≠ slipEsc → motive b)
    (b : Byte) : motive b := by
  by_cases hEnd : b = slipEnd
  · exact hEnd ▸ literalEnd
  · by_cases hEsc : b = slipEsc
    · exact hEsc ▸ literalEsc
    · exact plain b hEnd hEsc

theorem slipEncodeByte_plain {b : Byte} (hEnd : b ≠ slipEnd) (hEsc : b ≠ slipEsc) :
    slipEncodeByte b = [b] := by
  rw [slipEncodeByte, if_neg hEnd, if_neg hEsc]

/-- Settles O20, one kind of first byte at a time. -/
theorem slipEncoderByteByByte : Obligations.SlipEncoderByteByByte := by
  refine ⟨slipEncode_nil, slipEncode_cons slipEnd, slipEncode_cons slipEsc, fun b p hEnd hEsc => ?_⟩
  rw [slipEncode_cons, slipEncodeByte_plain hEnd hEsc, List.singleton_append]

/-! ### The length of the encoder's output (R78) -/

/-- The bytes for which the encoder writes two. -/
def slipEscaped (b : Byte) : Bool := b = slipEnd ∨ b = slipEsc

theorem slipEncodeByte_length (b : Byte) :
    (slipEncodeByte b).length = 1 + if slipEscaped b then 1 else 0 := by
  cases b using slipByte_cases with
  | literalEnd => rfl
  | literalEsc => rfl
  | plain b hEnd hEsc => simp [slipEncodeByte_plain hEnd hEsc, slipEscaped, hEnd, hEsc]

theorem slipEncode_length (p : List Byte) :
    (slipEncode p).length = p.length + p.countP slipEscaped := by
  induction p with
  | nil => rfl
  | cons b p ih =>
    rw [slipEncode_cons, List.length_append, slipEncodeByte_length, ih, List.length_cons,
      List.countP_cons]
    omega

/-- No byte is both END and ESC, so the two counts of R78 add up to that of the escaped bytes. -/
theorem count_slipEnd_add_count_slipEsc (p : List Byte) :
    p.count slipEnd + p.count slipEsc = p.countP slipEscaped := by
  induction p with
  | nil => rfl
  | cons b p ih =>
    cases b using slipByte_cases with
    | literalEnd =>
      rw [List.count_cons_self, List.count_cons_of_ne (by decide), List.countP_cons_of_pos rfl, ← ih]
      omega
    | literalEsc =>
      rw [List.count_cons_self, List.count_cons_of_ne (by decide), List.countP_cons_of_pos rfl, ← ih]
      omega
    | plain b hEnd hEsc =>
      have hb : ¬ slipEscaped b = true := by simp [slipEscaped, hEnd, hEsc]
      rw [List.count_cons_of_ne hEnd, List.count_cons_of_ne hEsc, List.countP_cons_of_neg hb, ih]

/-- Settles O21: the encoder escapes between none and all of the bytes. -/
theorem slipEncodedLength : Obligations.SlipEncodedLength := by
  intro p
  have hlen := slipEncode_length p
  have hle : p.countP slipEscaped ≤ p.length := List.countP_le_length
  refine ⟨?_, by omega, by omega, fun hall => ?_⟩
  · rw [hlen, ← count_slipEnd_add_count_slipEsc, ← Nat.add_assoc]
    rfl
  · have heq : p.countP slipEscaped = p.length :=
      List.countP_eq_length.mpr fun b hb => decide_eq_true (hall b hb)
    omega

/-! ### The decoder's forms -/

section
variable {c d : Byte} {f : List Byte} {e : DecodeError}

/-- ESC as the last byte of the frame (R81). -/
@[simp] theorem slipDecode_dangling : slipDecode [slipEsc] = .error .truncated := by
  simp [slipDecode]

theorem slipDecode_pair (h : slipUnescape c = .ok d) :
    slipDecode (slipEsc :: c :: f) = (slipDecode f).map (d :: ·) := by
  rw [slipDecode_escape, h]

theorem slipDecode_invalid (h : slipUnescape c = .error e) :
    slipDecode (slipEsc :: c :: f) = .error e := by
  rw [slipDecode_escape, h]

theorem slipUnescape_invalid (hEnd : c ≠ slipEscEnd) (hEsc : c ≠ slipEscEsc) :
    slipUnescape c = .error .invalidEscape := by
  rw [slipUnescape, if_neg hEnd, if_neg hEsc]

end

/-- Settles O22, one form of a frame's beginning at a time. -/
theorem slipDecoderCaseByCase : Obligations.SlipDecoderCaseByCase :=
  ⟨slipDecode_nil, slipDecode_dangling, fun _ => slipDecode_pair rfl, fun _ => slipDecode_pair rfl,
    fun _ _ hEnd hEsc => slipDecode_invalid (slipUnescape_invalid hEnd hEsc), slipDecode_plain⟩

/-- Induction along the scan of R79: the frame is at its end, ends in a dangling ESC, goes on with an escape
pair or with ESC and a byte that makes no pair, or with a byte that is copied. -/
theorem slipFrame_induction {motive : List Byte → Prop}
    (nil : motive [])
    (dangling : motive [slipEsc])
    (invalid : ∀ c f e, slipUnescape c = .error e → motive (slipEsc :: c :: f))
    (pair : ∀ c d f, slipUnescape c = .ok d → motive f → motive (slipEsc :: c :: f))
    (plain : ∀ b f, b ≠ slipEsc → motive f → motive (b :: f))
    (f : List Byte) : motive f := by
  induction f using slipDecode.induct with
  | case1 => exact nil
  | case2 => exact dangling
  | case3 b hb => exact plain b [] hb nil
  | case4 c f e h => exact invalid c f e h
  | case5 c f d h ih => exact pair c d f h ih
  | case6 b c f hb ih => exact plain b (c :: f) hb ih

/-- A frame whose first form gave `b` decodes only if the rest `x` does, and
`b` is then the packet's first byte. -/
theorem exists_cons_of_map_cons_eq_ok {x : Except DecodeError (List Byte)} {b : Byte} {p : List Byte}
    (h : x.map (b :: ·) = .ok p) : ∃ q, x = .ok q ∧ b :: q = p := by
  cases x with
  | ok q => exact ⟨q, rfl, Except.ok.inj h⟩
  | error e => exact absurd h (by simp [Except.map])

/-! ### Marker-free output, round trip and decoded length (R83) -/

theorem slipEnd_notMem_slipEncodeByte (b : Byte) : slipEnd ∉ slipEncodeByte b := by
  cases b using slipByte_cases with
  | literalEnd => decide
  | literalEsc => decide
  | plain b hEnd hEsc =>
    rw [slipEncodeByte_plain hEnd hEsc, List.mem_singleton]
    exact hEnd.symm

theorem slipEnd_notMem_slipEncode (p : List Byte) : slipEnd ∉ slipEncode p := by
  intro h
  obtain ⟨b, -, hb⟩ := List.mem_flatMap.mp h
  exact slipEnd_notMem_slipEncodeByte b hb

/-- What the encoder wrote for one byte is that byte to the decoder. -/
theorem slipDecode_slipEncodeByte_append (b : Byte) (f : List Byte) :
    slipDecode (slipEncodeByte b ++ f) = (slipDecode f).map (b :: ·) := by
  cases b using slipByte_cases with
  | literalEnd => exact slipDecode_pair rfl
  | literalEsc => exact slipDecode_pair rfl
  | plain b hEnd hEsc =>
    rw [slipEncodeByte_plain hEnd hEsc]
    exact slipDecode_plain b f hEsc

theorem slipDecode_slipEncode (p : List Byte) : slipDecode (slipEncode p) = .ok p := by
  induction p with
  | nil => exact slipDecode_nil
  | cons b p ih =>
    rw [slipEncode_cons, slipDecode_slipEncodeByte_append, ih]
    rfl

/-- A copied byte gives one byte of the packet, an escape pair one for two. -/
theorem length_le_of_slipDecode (f p : List Byte) (h : slipDecode f = .ok p) :
    p.length ≤ f.length := by
  induction f using slipFrame_induction generalizing p with
  | nil =>
    cases h
    exact le_rfl
  | dangling => simp at h
  | invalid c f e hc => simp [slipDecode_invalid hc] at h
  | pair c d f hc ih =>
    rw [slipDecode_pair hc] at h
    obtain ⟨q, hq, rfl⟩ := exists_cons_of_map_cons_eq_ok h
    exact Nat.le_succ_of_le (Nat.succ_le_succ (ih q hq))
  | plain b f hb ih =>
    rw [slipDecode_plain b f hb] at h
    obtain ⟨q, hq, rfl⟩ := exists_cons_of_map_cons_eq_ok h
    exact Nat.succ_le_succ (ih q hq)

/-- Settles O23: byte by byte for the encoder's output, form by form for the decoder's. -/
theorem slipMarkerFreeRoundTripAndLength : Obligations.SlipMarkerFreeRoundTripAndLength :=
  ⟨slipEnd_notMem_slipEncode, slipDecode_slipEncode, length_le_of_slipDecode⟩

/-! ### Error order (R84) -/

/-- After bytes that decode, the scan goes on as from the start of a frame. -/
theorem slipDecode_append {f p : List Byte} (g : List Byte) (hf : slipDecode f = .ok p) :
    slipDecode (f ++ g) = (slipDecode g).map (p ++ ·) := by
  induction f using slipFrame_induction generalizing p with
  | nil =>
    cases hf
    rw [List.nil_append]
    cases slipDecode g <;> rfl
  | dangling => simp at hf
  | invalid c f e hc => simp [slipDecode_invalid hc] at hf
  | pair c d f hc ih =>
    rw [slipDecode_pair hc] at hf
    obtain ⟨q, hq, rfl⟩ := exists_cons_of_map_cons_eq_ok hf
    rw [List.cons_append, List.cons_append, slipDecode_pair hc, ih hq]
    cases slipDecode g <;> rfl
  | plain b f hb ih =>
    rw [slipDecode_plain b f hb] at hf
    obtain ⟨q, hq, rfl⟩ := exists_cons_of_map_cons_eq_ok hf
    rw [List.cons_append, slipDecode_plain b _ hb, ih hq]
    cases slipDecode g <;> rfl

/-- So an error of the rest is the error of the whole. -/
theorem slipDecode_append_error {f p g : List Byte} {e : DecodeError} (hf : slipDecode f = .ok p)
    (hg : slipDecode g = .error e) : slipDecode (f ++ g) = .error e := by
  rw [slipDecode_append g hf, hg]
  rfl

/-- Settles O24: each error is that of a frame which begins with its escape. -/
theorem slipFirstErrorDecides : Obligations.SlipFirstErrorDecides :=
  ⟨slipDecode_invalid rfl, fun _ _ hf => ⟨slipDecode_append_error hf slipDecode_dangling,
    fun _ _ hEnd hEsc =>
      slipDecode_append_error hf (slipDecode_invalid (slipUnescape_invalid hEnd hEsc))⟩⟩

end Sys2Proof.Machine
end

section
/-! PROOFS. The statements of 42_receiver.md: ACCEPT and RESET case by case (R85 to R93, R97), the feed of a
whole frame, and what follows from it (R94 to R96). The feed is run on the abstract view of R19, where the
frame in progress is a list; the block then does the same, for that view simulates it. -/

namespace Sys2Proof.Machine

open Sys2Proof

/-! ### ACCEPT and RESET, one case at a time -/

section
variable {s t : State} {b : Byte}

theorem exec_accept_marker (h : acceptMarker s = .ok t) : exec (.accept s.marker) s = .next t :=
  execAccept_next_iff.mpr (.inl ⟨rfl, h⟩)

theorem exec_accept_payload (hb : b ≠ s.marker) (h : acceptPayload b s = .ok t) :
    exec (.accept b) s = .next t :=
  execAccept_next_iff.mpr (.inr ⟨hb, h⟩)

end

/-- Settles O26: the idle case of the marker. -/
theorem acceptIdleMarker : Obligations.AcceptIdleMarker :=
  fun _ hc ho => exec_accept_marker (acceptMarker_of_idle ho hc)

/-- Settles O27: the marker's response carries what the frame decodes to, if anything. -/
theorem acceptCompletesFrame : Obligations.AcceptCompletesFrame := by
  intro s ho hc hle
  have h := exec_accept_marker (acceptMarker_of_frame ho hc hle)
  refine ⟨fun p hp => ?_, fun e he => ?_⟩
  · have hpkt : s.packetOf s.rxFrame = some p := congrArg Except.toOption hp
    rwa [hpkt] at h
  · have hpkt : s.packetOf s.rxFrame = none := congrArg Except.toOption he
    rwa [hpkt] at h

/-- Settles O28: the marker's case while overflowed. -/
theorem acceptEndsOversizedFrame : Obligations.AcceptEndsOversizedFrame :=
  fun _ ho => exec_accept_marker (acceptMarker_of_overflowed ho)

/-- Settles O29: the write at the cursor, and the frame it makes. -/
theorem acceptAppendsPayloadByte : Obligations.AcceptAppendsPayloadByte :=
  fun s b hb ho hlt => ⟨s.rxBuf.write s.rxCursor b, exec_accept_of_fits hb ho hlt, hlt,
    read_write_same _ _ _, fun i => read_write_other s.rxBuf s.rxCursor i b, rxFrame_append s b⟩

/-- Settles O30: the full-buffer case of a payload byte. -/
theorem acceptDetectsOverflow : Obligations.AcceptDetectsOverflow :=
  fun _ _ hb ho hfull => exec_accept_payload hb (acceptPayload_of_full ho hfull)

/-- Settles O31: the overflowed case of a payload byte. -/
theorem acceptDiscardsWhileOverflowed : Obligations.AcceptDiscardsWhileOverflowed :=
  fun _ _ hb ho => exec_accept_payload hb (acceptPayload_of_overflowed ho)

/-- Settles O35: RESET makes exactly these updates. -/
theorem resetClearsReceiver : Obligations.ResetClearsReceiver := fun _ => rfl

/-! ### The frame of ACCEPT -/

/-- Settles O32: only the payload byte that fits writes, and then at the cursor. -/
theorem acceptFrame : Obligations.AcceptFrame := by
  intro s t b h
  obtain ⟨-, h⟩ | ⟨hb, h⟩ := execAccept_next_iff.mp h
  · obtain ⟨-, rfl⟩ | ⟨-, -, rfl⟩ | ⟨-, -, -, rfl⟩ := acceptMarker_cases h <;>
      exact ⟨rfl, rfl, rfl, rfl, ⟨_, rfl, rfl, rfl, rfl⟩, fun _ _ _ => rfl, fun _ _ => rfl⟩
  · obtain ⟨-, rfl⟩ | ⟨-, -, rfl⟩ | ⟨ho, hlt, rfl⟩ := acceptPayload_cases h
    · exact ⟨rfl, rfl, rfl, rfl, ⟨_, rfl, rfl, rfl, rfl⟩, fun _ _ _ => rfl, fun _ _ => rfl⟩
    · exact ⟨rfl, rfl, rfl, rfl, ⟨_, rfl, rfl, rfl, rfl⟩, fun _ _ _ => rfl, fun _ _ => rfl⟩
    · exact ⟨rfl, rfl, rfl, rfl, ⟨_, rfl, rfl, rfl, rfl⟩, fun _ _ hi => rxByte_write_other s b hi,
        fun hn => absurd ⟨hb, ho, hlt⟩ hn⟩

/-! ### The configured codec -/

section
variable (c : Codec) (p : List Byte)

/-- Neither encoder writes its marker (R64, R83). -/
theorem marker_notMem_encodePacket : c.marker ∉ c.encodePacket p := by
  cases c with
  | cobs => exact cobsOutputIsZeroFree p
  | slip => exact slipEnd_notMem_slipEncode p

/-- Both codecs give an encoded packet back (R73, R83). -/
theorem decodeFrame_encodePacket : c.decodeFrame (c.encodePacket p) = .ok p := by
  cases c with
  | cobs => exact cobsRoundTrip p
  | slip => exact slipDecode_slipEncode p

@[simp] theorem encodePacket_nil : c.encodePacket [] = [] := by
  cases c <;> rfl

@[simp] theorem decodeFrame_nil : c.decodeFrame [] = .ok [] := by
  simpa using decodeFrame_encodePacket c []

/-- Neither decoder lengthens (R72, R83). -/
theorem length_le_of_decodeFrame {f : List Byte} (h : c.decodeFrame f = .ok p) :
    p.length ≤ f.length := by
  cases c with
  | cobs => exact length_le_of_cobsDecode f p h
  | slip => exact length_le_of_slipDecode f p h

/-- Only the empty packet has an empty frame, since that frame decodes to it. -/
theorem encodePacket_ne_nil (hp : p ≠ []) : c.encodePacket p ≠ [] := by
  intro h
  have hd := decodeFrame_encodePacket c p
  rw [h, decodeFrame_nil] at hd
  exact hp (Except.ok.inj hd).symm

end

/-- Every form a non-empty SLIP frame begins with gives a first byte of the packet, or an error. -/
theorem slipDecode_ne_ok_nil {f : List Byte} (hf : f ≠ []) : slipDecode f ≠ .ok [] := by
  intro h
  cases f using slipFrame_induction with
  | nil => exact hf rfl
  | dangling => simp at h
  | invalid c f e hc => simp [slipDecode_invalid hc] at h
  | pair c d f hc =>
    rw [slipDecode_pair hc] at h
    obtain ⟨q, -, hq⟩ := exists_cons_of_map_cons_eq_ok h
    exact List.cons_ne_nil _ _ hq
  | plain b f hb =>
    rw [slipDecode_plain b f hb] at h
    obtain ⟨q, -, hq⟩ := exists_cons_of_map_cons_eq_ok h
    exact List.cons_ne_nil _ _ hq

/-! ### Where a dispatch comes from (R92) -/

section
variable {s t : State} {i : Instr} {r : Response} {p : List Byte}

theorem codecDecode_of_packetOf {f : List Byte} (h : s.packetOf f = some p) :
    s.codecDecode f = .ok p := by
  unfold State.packetOf at h
  cases hx : s.codecDecode f with
  | ok q => simpa [hx, Except.toOption] using h
  | error e => simp [hx, Except.toOption] at h

/-- A command that dispatches is ACCEPT of the marker at the end of a frame that decodes. -/
theorem exec_of_dispatch (h : exec i s = .next t) (hr : t.responses = s.responses ++ [r])
    (hp : r.pkt = some p) :
    i = .accept s.marker ∧ s.rxOverflowed = false ∧ 0 < s.rxCursor ∧
      s.rxCursor ≤ s.cfg.rxCapacity ∧ s.codecDecode s.rxFrame = .ok p := by
  have hlast {r' : Response} (ht : t.responses = s.responses ++ [r']) : r' = r :=
    List.singleton_inj.mp (List.append_cancel_left (ht.symm.trans hr))
  have hnone {r' : Response} (ht : t.responses = s.responses ++ [r']) (h' : r'.pkt = none) : False :=
    Option.some_ne_none p (hp.symm.trans (hlast ht ▸ h'))
  cases i with
  | accept b =>
    obtain ⟨hb, h⟩ | ⟨-, h⟩ := execAccept_next_iff.mp h
    · obtain ⟨-, rfl⟩ | ⟨-, -, rfl⟩ | ⟨ho, hc, hle, rfl⟩ := acceptMarker_cases h
      · exact (hnone rfl rfl).elim
      · exact (hnone rfl rfl).elim
      · have hpkt : s.packetOf s.rxFrame = some p := (congrArg Response.pkt (hlast rfl)).trans hp
        exact ⟨congrArg Instr.accept hb, ho, hc, hle, codecDecode_of_packetOf hpkt⟩
    · obtain ⟨-, rfl⟩ | ⟨-, -, rfl⟩ | ⟨-, -, rfl⟩ := acceptPayload_cases h <;>
        exact (hnone rfl rfl).elim
  | send => obtain ⟨-, rfl⟩ | ⟨-, rfl⟩ := execSend_cases h <;> exact (hnone rfl rfl).elim
  | reset =>
    cases h
    exact (hnone rfl rfl).elim
  | encode => obtain ⟨-, rfl⟩ | ⟨-, rfl⟩ := execEncode_cases h <;> exact (hnone rfl rfl).elim
  | decode =>
    obtain ⟨-, rfl⟩ | ⟨-, e, -, rfl⟩ | ⟨-, q, -, rfl⟩ := execDecode_cases h <;>
      exact (hnone rfl rfl).elim

end

/-- Settles O34: the packet is no longer than the frame it came from. -/
theorem dispatchOnlyFromCompletedFrame : Obligations.DispatchOnlyFromCompletedFrame := by
  refine ⟨fun s t i r p h hr hp => ?_, rfl, fun f => slipDecode_ne_ok_nil⟩
  obtain ⟨hi, ho, hc, hle, hd⟩ := exec_of_dispatch h hr hp
  have hlen : p.length ≤ s.rxFrame.length := length_le_of_decodeFrame _ p hd
  exact ⟨hi, ho, hc, hd, rxFrame_length s ▸ hlen, hle⟩

/-! ### The feed of one frame on the abstract view -/

theorem feed_append (xs ys : List Byte) : feed (xs ++ ys) = feed xs ++ feed ys :=
  List.map_append

/-- A byte of a feed is an ACCEPT (30_encoding.md R58). -/
theorem feed_cons (b : Byte) (bs : List Byte) :
    feed (b :: bs) = commandOf (.accept b) [] :: feed bs := rfl

@[simp] theorem feed_length (bs : List Byte) : (feed bs).length = bs.length :=
  List.length_map _

/-- `State.feedResult` on the abstract view. -/
def AbsReceiver.feedResult (c : Config) (a : AbsReceiver) (f : List Byte) : Option (List Byte) :=
  if a.overflowed = true ∨ c.rxCapacity < a.frame.length + f.length then none
  else if a.frame ++ f = [] then none
  else (c.codec.decodeFrame (a.frame ++ f)).toOption

theorem feedResult_abs (s : State) (f : List Byte) : s.abs.feedResult s.cfg f = s.feedResult f := by
  simp only [AbsReceiver.feedResult, State.feedResult, State.abs, rxFrame_length]
  rfl

theorem absRun_cons (c : Config) (a : AbsReceiver) (t : Command) (ts : List Command) :
    absRun c a (t :: ts) = ((absRun c (absCommand c t a).1 ts).1,
      (absCommand c t a).2 :: (absRun c (absCommand c t a).1 ts).2) := rfl

section
variable {c : Config} {a : AbsReceiver} {b : Byte}

theorem absCommand_accept : absCommand c (commandOf (.accept b) []) a = absAccept c b a := by
  simp only [absCommand, commandOf, decode_encode]

/-- The marker ends the frame in progress, with nothing fed to it since. -/
theorem absAccept_marker (ha : a.frame.length ≤ c.rxCapacity) :
    absAccept c c.codec.marker a =
      ({ frame := [], overflowed := false }, { pkt := a.feedResult c [] }) := by
  by_cases ho : a.overflowed = true <;> simp [absAccept, AbsReceiver.feedResult, ho, ha.not_gt]

/-- Everything a payload byte can do to the view (R89 to R91). -/
theorem absAccept_payload_cases (hb : b ≠ c.codec.marker) :
    (a.overflowed = true ∧ absAccept c b a = (a, Response.plain)) ∨
    (a.overflowed = false ∧ a.frame.length = c.rxCapacity ∧
      absAccept c b a = ({ frame := [], overflowed := true }, Response.plain)) ∨
    (a.overflowed = false ∧ a.frame.length ≠ c.rxCapacity ∧
      absAccept c b a = ({ frame := a.frame ++ [b], overflowed := false }, Response.plain)) := by
  cases ho : a.overflowed with
  | true => exact .inl ⟨rfl, by simp [absAccept, hb, ho, Response.plain]⟩
  | false =>
    by_cases hl : a.frame.length = c.rxCapacity
    · exact .inr (.inl ⟨rfl, hl, by simp [absAccept, hb, ho, hl, Response.plain]⟩)
    · exact .inr (.inr ⟨rfl, hl, by simp [absAccept, hb, ho, hl, Response.plain]⟩)

/-- A payload byte answers nothing, keeps the frame within the buffer, and does not change what the frame
will give: a byte fed is a byte held or a frame lost. -/
theorem absAccept_payload (hb : b ≠ c.codec.marker) (ha : a.frame.length ≤ c.rxCapacity) :
    ∃ a' : AbsReceiver, absAccept c b a = (a', Response.plain) ∧ a'.frame.length ≤ c.rxCapacity ∧
      ∀ f, a'.feedResult c f = a.feedResult c (b :: f) := by
  obtain ⟨ho, h⟩ | ⟨ho, hl, h⟩ | ⟨ho, hl, h⟩ := absAccept_payload_cases (a := a) hb
  · exact ⟨_, h, ha, fun f => by simp [AbsReceiver.feedResult, ho]⟩
  · exact ⟨_, h, Nat.zero_le _, fun f => by simp [AbsReceiver.feedResult, hl]⟩
  · have hlt := Nat.lt_of_le_of_ne ha hl
    refine ⟨_, h, by simpa using hlt, fun f => ?_⟩
    have hlen : a.frame.length + 1 + f.length = a.frame.length + (f.length + 1) := by omega
    simp [AbsReceiver.feedResult, ho, hlen]

/-- The whole feed of a frame, by induction on its payload bytes. -/
theorem absRun_feed_frame {f : List Byte} (hf : c.codec.marker ∉ f)
    (ha : a.frame.length ≤ c.rxCapacity) :
    absRun c a (feed (f ++ [c.codec.marker])) = ({ frame := [], overflowed := false },
      List.replicate f.length Response.plain ++ [{ pkt := a.feedResult c f }]) := by
  induction f generalizing a with
  | nil =>
    rw [List.nil_append, feed_cons, absRun_cons, absCommand_accept, absAccept_marker ha]
    rfl
  | cons b f ih =>
    obtain ⟨hb, hf⟩ := List.ne_and_not_mem_of_not_mem_cons hf
    obtain ⟨a', h, ha', hres⟩ := absAccept_payload (Ne.symm hb) ha
    rw [List.cons_append, feed_cons, absRun_cons, absCommand_accept, h, ih hf ha', hres]
    rfl

end

/-- Settles O54: the block simulates the feed on the abstract view. -/
theorem feedOfOneFrame : Obligations.FeedOfOneFrame := by
  intro s f rest hs hf hp
  have habs : absRun s.cfg s.abs (feed (f ++ [s.marker])) = _ :=
    absRun_feed_frame hf ((rxFrame_length s).trans_le hs)
  obtain ⟨t, hrun, hpend, hcfg, hview, hcur, -, hresp⟩ := abstractViewSimulates s _ rest hp hs
  rw [habs] at hview hresp
  rw [hview] at hcur
  refine ⟨t, ?_, hpend, hcfg, ⟨hcur, congrArg AbsReceiver.overflowed hview⟩, ?_⟩
  · simpa using hrun
  · rw [hresp, feedResult_abs, List.append_assoc]

/-! ### What a feed dispatches -/

section
variable {s t : State} {f p : List Byte}

theorem feedResult_of_lost (h : s.rxOverflowed = true ∨ s.cfg.rxCapacity < s.rxCursor + f.length) :
    s.feedResult f = none :=
  if_pos h

theorem feedResult_of_empty (h : s.rxFrame ++ f = []) : s.feedResult f = none := by
  simp [State.feedResult, h]

theorem feedResult_of_fits (ho : s.rxOverflowed = false)
    (hle : s.rxCursor + f.length ≤ s.cfg.rxCapacity) (hne : s.rxFrame ++ f ≠ []) :
    s.feedResult f = (s.codecDecode (s.rxFrame ++ f)).toOption := by
  simp only [State.feedResult, ho, hle.not_gt, hne, Bool.false_eq_true, or_self, if_false]

theorem rxFrame_of_atBoundary (hs : s.atBoundary) : s.rxFrame = [] :=
  (rxFrame_eq_nil_iff s).mpr hs.1

/-- From a boundary, the frame of a packet that fits gives the packet. -/
theorem feedResult_codecEncode (hs : s.atBoundary) (hp : p ≠ [])
    (hle : (s.codecEncode p).length ≤ s.cfg.rxCapacity) :
    s.feedResult (s.codecEncode p) = some p := by
  have hframe := rxFrame_of_atBoundary hs
  obtain ⟨hc, ho⟩ := hs
  have hne : s.codecEncode p ≠ [] := encodePacket_ne_nil _ p hp
  have hd : s.codecDecode (s.codecEncode p) = .ok p := decodeFrame_encodePacket _ p
  rw [feedResult_of_fits ho (by omega) (by simpa [hframe] using hne), hframe, List.nil_append, hd]
  rfl

/-- Of the responses of a feed only the last can dispatch. -/
theorem dispatched_of_feed {n : Nat} {x : Option (List Byte)}
    (h : t.responses = s.responses ++ List.replicate n Response.plain ++ [{ pkt := x }]) :
    t.dispatched = s.dispatched ++ x.toList := by
  rw [List.append_assoc] at h
  rw [dispatched_of_responses h]
  cases x <;> simp [Response.plain]

end

/-- Settles O55: the frame holds no marker, so the feed of one frame says what is dispatched. -/
theorem streamingEquivalence : Obligations.StreamingEquivalence := by
  intro s p rest hs hpend
  have hm : s.marker ∉ s.codecEncode p := marker_notMem_encodePacket _ p
  obtain ⟨t, hrun, hrest, -, hbd, hresp⟩ := feedOfOneFrame s (s.codecEncode p) rest hs hm hpend
  have hdisp := dispatched_of_feed hresp
  have hnone (h : s.feedResult (s.codecEncode p) = none) : t.dispatched = s.dispatched := by
    rw [hdisp, h, Option.toList_none, List.append_nil]
  refine ⟨t, hrun, hrest, hbd, fun hb hp hle => ?_, fun hb hp => hnone ?_,
    fun hlong => hnone ?_, fun ho => hnone ?_, fun ho hc hle => ?_, fun _ _ hlong => hnone ?_⟩
  · rw [hresp, feedResult_codecEncode hb hp hle]
  · have henc : s.codecEncode p = [] := hp ▸ encodePacket_nil _
    exact feedResult_of_empty (by rw [rxFrame_of_atBoundary hb, henc, List.append_nil])
  · exact feedResult_of_lost (.inr (by omega))
  · exact feedResult_of_lost (.inl ho)
  · have hframe : s.rxFrame ≠ [] := mt (rxFrame_eq_nil_iff s).mp hc.ne'
    rw [hdisp, feedResult_of_fits ho hle (List.append_ne_nil_of_left_ne_nil hframe _)]
  · exact feedResult_of_lost (.inr hlong)

/-- Settles O56: the oversized feed leaves a boundary, from which the next frame is dispatched. -/
theorem overflowRecovery : Obligations.OverflowRecovery := by
  intro s bs p rest hs hm hlong hp hle hpend
  have hs0 : s.rxCursor ≤ s.cfg.rxCapacity := hs.1.trans_le (Nat.zero_le _)
  rw [feed_append, List.append_assoc] at hpend
  obtain ⟨t, hrun, hrest, hcfg, hbt, hresp⟩ := feedOfOneFrame s bs _ hs0 hm hpend
  have henc : t.codecEncode p = s.codecEncode p := by simp only [State.codecEncode, hcfg]
  have hmark : t.marker = s.marker := by simp only [State.marker, hcfg]
  have ht0 : t.rxCursor ≤ t.cfg.rxCapacity := hbt.1.trans_le (Nat.zero_le _)
  rw [← henc, ← hmark] at hrest
  obtain ⟨u, hrun', hrest', hbu, hresp', -⟩ := streamingEquivalence t p rest ht0 hrest
  rw [← henc, ← hcfg] at hle
  refine ⟨u, ?_, hrest', hbu, ?_⟩
  · rw [run_add _ hrun, ← henc, hrun']
  · rw [hresp' hbt hp hle, hresp, feedResult_of_lost (.inr (by omega)), henc]
    rw [List.replicate_add, List.replicate_add]
    simp [Response.plain]

/-! ### Runs of markers (R96) -/

/-- A marker is the feed of a frame with no payload byte of its own. -/
theorem feed_marker {s : State} {bs : List Byte} {rest : List Command}
    (hs : s.rxCursor ≤ s.cfg.rxCapacity) (hp : s.pending = feed (s.marker :: bs) ++ rest) :
    ∃ t, run 1 s = .next t ∧ t.pending = feed bs ++ rest ∧ t.marker = s.marker ∧ t.atBoundary ∧
      t.responses = s.responses ++ [{ pkt := s.feedResult [] }] := by
  obtain ⟨t, hrun, hrest, hcfg, hbd, hresp⟩ :=
    feedOfOneFrame s [] (feed bs ++ rest) hs List.not_mem_nil hp
  rw [List.length_nil, List.replicate_zero, List.append_nil] at hresp
  exact ⟨t, hrun, hrest, congrArg (·.codec.marker) hcfg, hbd, hresp⟩

/-- Only the first marker of a run can end a frame: from then on the receiver is at a boundary, where markers
are idle. -/
theorem feed_markers (m : Nat) {s : State} {rest : List Command} (hs : s.rxCursor ≤ s.cfg.rxCapacity)
    (hp : s.pending = feed (List.replicate (m + 1) s.marker) ++ rest) :
    ∃ t, run (m + 1) s = .next t ∧ t.pending = rest ∧ t.atBoundary ∧
      t.responses = s.responses ++ { pkt := s.feedResult [] } :: List.replicate m Response.plain := by
  induction m generalizing s with
  | zero =>
    obtain ⟨t, hrun, hrest, -, hbd, hresp⟩ := feed_marker hs hp
    exact ⟨t, hrun, hrest, hbd, hresp⟩
  | succ m ih =>
    obtain ⟨u, hrun, hrest, hmark, hbd, hresp⟩ := feed_marker hs hp
    rw [← hmark] at hrest
    obtain ⟨t, hrun', hrest', hbt, hresp'⟩ := ih (hbd.1.trans_le (Nat.zero_le _)) hrest
    have hidle : u.feedResult [] = none :=
      feedResult_of_empty ((List.append_nil _).trans (rxFrame_of_atBoundary hbd))
    refine ⟨t, ?_, hrest', hbt, ?_⟩
    · rw [Nat.add_comm, run_add (m + 1) hrun, hrun']
    · rw [hresp', hresp, hidle, List.append_assoc]
      rfl

theorem acceptMarker_atBoundary {s t : State} (h : acceptMarker s = .ok t) : t.atBoundary := by
  obtain ⟨-, rfl⟩ | ⟨ho, hc, rfl⟩ | ⟨ho, -, -, rfl⟩ := acceptMarker_cases h
  · exact ⟨rfl, rfl⟩
  · exact ⟨hc, ho⟩
  · exact ⟨rfl, ho⟩

/-- Settles O57: with no byte held, the first marker of a run gives nothing either. -/
theorem markersLeaveBoundary : Obligations.MarkersLeaveBoundary := by
  refine ⟨fun s t h => ?_, fun m s rest hs hp => ?_⟩
  · obtain ⟨-, h⟩ | ⟨hb, -⟩ := execAccept_next_iff.mp h
    · exact acceptMarker_atBoundary h
    · exact absurd rfl hb
  · obtain ⟨t, hrun, hrest, hbd, hresp⟩ := feed_markers m hs hp
    refine ⟨t, hrun, hrest, hbd, hresp, fun hc => ?_⟩
    have hempty : s.rxFrame ++ [] = [] := (List.append_nil _).trans ((rxFrame_eq_nil_iff s).mpr hc)
    rw [dispatched_of_responses hresp, feedResult_of_empty hempty]
    simp [Response.plain]

end Sys2Proof.Machine
end

section
/-! PROOFS. The statements of 43_sender.md: what SEND emits (R98 to R101), and that neither SEND nor the
codec access reads the receiver (R102). -/

namespace Sys2Proof.Machine

open Sys2Proof

/-! ### SEND on each side of the size check -/

section
variable {s : State}

/-- A packet within `MAX_PACKET_SIZE` is emitted, with the marker last (R98). -/
theorem exec_send_of_le (h : s.din.length ≤ s.cfg.maxPacketSize) :
    exec .send s = .next (s.respond { tx := s.codecEncode s.din ++ [s.marker] }) :=
  if_neg fun hlt => h.not_gt (of_decide_eq_true hlt)

/-- A longer packet is refused, with nothing emitted (R99). -/
theorem exec_send_of_lt (h : s.cfg.maxPacketSize < s.din.length) :
    exec .send s = .next (s.raiseStatus .packetTooLarge) :=
  if_pos (decide_eq_true h)

end

/-- Settles O37: the two branches of the size check. -/
theorem sendEmitsFrameThenMarker : Obligations.SendEmitsFrameThenMarker :=
  fun _ => ⟨exec_send_of_le, exec_send_of_lt⟩

/-- Settles O38: the empty packet passes every size check and has an empty frame, and its marker is the idle
marker of any receiver with the same codec. -/
theorem emptyPacketIsLoneMarker : Obligations.EmptyPacketIsLoneMarker := by
  intro s hs
  refine ⟨?_, fun r hr ⟨hc, ho⟩ => ?_⟩
  · have hle : s.din.length ≤ s.cfg.maxPacketSize := by simp [hs]
    have henc : s.codecEncode s.din = [] := hs ▸ encodePacket_nil _
    rw [exec_send_of_le hle, henc]
    rfl
  · have hm : s.marker = r.marker := congrArg Codec.marker hr.symm
    rw [hm]
    exact acceptIdleMarker r hc ho

/-! ### The length of what SEND emits (R101) -/

section
variable {s : State}

theorem codecEncode_of_cobs (h : s.cfg.codec = .cobs) (p : List Byte) :
    s.codecEncode p = cobsEncode p :=
  congrArg (·.encodePacket p) h

theorem codecEncode_of_slip (h : s.cfg.codec = .slip) (p : List Byte) :
    s.codecEncode p = slipEncode p :=
  congrArg (·.encodePacket p) h

end

/-- Settles O39: the encoded packet holds no marker, and each codec bounds its length. -/
theorem sendWireLengthAndLoneMarker : Obligations.SendWireLengthAndLoneMarker := by
  intro s hle
  have hlen : (s.codecEncode s.din ++ [s.marker]).length = (s.codecEncode s.din).length + 1 :=
    List.length_append
  refine ⟨_, rfl, marker_notMem_encodePacket _ _, exec_send_of_le hle, hlen, fun hc hne => ?_,
    fun hc hnil => ?_, fun hc => ?_⟩
  · obtain ⟨-, hbound, -⟩ := cobsEncodedLength
    obtain ⟨-, -, hcobs⟩ := hbound s.din hne
    rw [hlen, codecEncode_of_cobs hc]
    exact Nat.succ_le_succ hcobs
  · rw [hlen, codecEncode_of_cobs hc, hnil]
    rfl
  · obtain ⟨-, hlow, hhigh, -⟩ := slipEncodedLength s.din
    rw [hlen, codecEncode_of_slip hc]
    exact ⟨Nat.succ_le_succ hlow, Nat.succ_le_succ hhigh⟩

/-! ### Independence of the receiver (R102) -/

/-- On the abstract view the three commands answer the same whatever the receiver holds. -/
theorem absCommand_answering_response {i : Instr} (hi : i ∈ [Instr.send, .encode, .decode]) (c : Config)
    (d : List Byte) (a a' : AbsReceiver) :
    (absCommand c { cmd := encode i, din := d } a).2 =
      (absCommand c { cmd := encode i, din := d } a').2 := by
  obtain rfl | rfl | rfl : i = .send ∨ i = .encode ∨ i = .decode := by simpa using hi
  all_goals simp only [absCommand, decode_encode]

/-- Settles O42: each command only answers, and its response is the one of the abstract view. -/
theorem sendPathIndependentOfReceiver : Obligations.SendPathIndependentOfReceiver := by
  intro i hi s u hcfg hdin
  refine ⟨_, exec_answering_eq hi s, ?_⟩
  rw [hcfg, hdin, absCommand_answering_response hi u.cfg u.din s.abs u.abs]
  exact exec_answering_eq hi u

end Sys2Proof.Machine
end

section
/-! PROOFS. The statements of 44_codec_access.md: what ENCODE and DECODE answer (R104, R105), and that DECODE
agrees with the receiver on a whole frame (R105). -/

namespace Sys2Proof.Machine

open Sys2Proof

/-! ### ENCODE and DECODE, one case at a time -/

section
variable {s : State}

/-- A packet within `MAX_PACKET_SIZE` is answered encoded, with no marker appended (R104). -/
theorem exec_encode_of_le (h : s.din.length ≤ s.cfg.maxPacketSize) :
    exec .encode s = .next (s.respond { data := s.codecEncode s.din }) :=
  if_neg fun hlt => h.not_gt (of_decide_eq_true hlt)

/-- A longer packet is refused. -/
theorem exec_encode_of_lt (h : s.cfg.maxPacketSize < s.din.length) :
    exec .encode s = .next (s.raiseStatus .packetTooLarge) :=
  if_pos (decide_eq_true h)

/-- A frame the buffer could not hold is refused before it is decoded (R105, 60_exceptions.md R113). -/
theorem exec_decode_of_lt (h : s.cfg.rxCapacity < s.din.length) :
    exec .decode s = .next (s.raiseStatus .frameTooLarge) :=
  if_pos (decide_eq_true h)

theorem frameTooLarge_eq_false (h : s.din.length ≤ s.cfg.rxCapacity) : s.frameTooLarge = false :=
  decide_eq_false h.not_gt

theorem exec_decode_of_ok {p : List Byte} (h : s.din.length ≤ s.cfg.rxCapacity)
    (hd : s.codecDecode s.din = .ok p) : exec .decode s = .next (s.respond { data := p }) := by
  simp [exec, execDecode, frameTooLarge_eq_false h, State.operand, hd]

theorem exec_decode_of_error {e : DecodeError} (h : s.din.length ≤ s.cfg.rxCapacity)
    (hd : s.codecDecode s.din = .error e) : exec .decode s = .next (s.raiseStatus e.status) := by
  simp [exec, execDecode, frameTooLarge_eq_false h, State.operand, hd]

end

/-- Settles O40: the two branches of the size check; no encoder writes its marker. -/
theorem encodeGivesFrameOnDout : Obligations.EncodeGivesFrameOnDout := fun _ =>
  ⟨fun h => ⟨exec_encode_of_le h, marker_notMem_encodePacket _ _⟩, exec_encode_of_lt⟩

/-- Settles O41: the size check, then the decoder's packet or the status of its error. -/
theorem decodeGivesPacketOrStatus : Obligations.DecodeGivesPacketOrStatus := fun _ =>
  ⟨exec_decode_of_lt, fun h => ⟨fun _ => exec_decode_of_ok h, exec_decode_of_error h,
    exec_decode_of_error h, exec_decode_of_error h⟩⟩

/-! ### DECODE and the receiver (R105) -/

/-- No decode error is reported with the status OK. -/
theorem decodeError_code_ne_ok (e : DecodeError) : e.status.code ≠ 0x00#8 := by
  cases e <;> decide

/-- From a boundary, a frame that fits gives what it decodes to. -/
theorem feedResult_of_atBoundary {s : State} {f : List Byte} (hs : s.atBoundary) (hne : f ≠ [])
    (hle : f.length ≤ s.cfg.rxCapacity) : s.feedResult f = (s.codecDecode f).toOption := by
  have hframe := rxFrame_of_atBoundary hs
  obtain ⟨hc, ho⟩ := hs
  rw [feedResult_of_fits ho (by omega) (by simpa [hframe] using hne), hframe, List.nil_append]

/-- Feeding a whole frame from a boundary dispatches the packet it decodes to, or nothing. -/
theorem feed_dispatches_decoded {s : State} {f : List Byte} {rest : List Command} (hs : s.atBoundary)
    (hne : f ≠ []) (hle : f.length ≤ s.cfg.rxCapacity) (hm : s.marker ∉ f)
    (hp : s.pending = feed (f ++ [s.marker]) ++ rest) :
    ∃ t, run (f.length + 1) s = .next t ∧
      t.dispatched = s.dispatched ++ (s.codecDecode f).toOption.toList := by
  obtain ⟨t, hrun, -, -, -, hresp⟩ := feedOfOneFrame s f rest (hs.1.trans_le (Nat.zero_le _)) hm hp
  rw [feedResult_of_atBoundary hs hne hle] at hresp
  exact ⟨t, hrun, dispatched_of_feed hresp⟩

/-- Settles O59: DECODE and the feed both give what the codec makes of the frame. -/
theorem decodeAgreesWithReceiver : Obligations.DecodeAgreesWithReceiver := by
  intro s f rest hs hne hle hm
  obtain ⟨t, hrun, hdisp⟩ := feed_dispatches_decoded
    (s := { s with pending := feed (f ++ [s.marker]) ++ rest }) hs hne hle hm rfl
  change t.dispatched = s.dispatched ++ (s.codecDecode f).toOption.toList at hdisp
  cases hd : s.codecDecode f with
  | ok p =>
    rw [hd] at hdisp
    exact ⟨_, t, _, exec_decode_of_ok (s := { s with din := f }) hle hd, rfl, hrun,
      fun _ => hdisp, fun h => absurd rfl h⟩
  | error e =>
    rw [hd] at hdisp
    exact ⟨_, t, _, exec_decode_of_error (s := { s with din := f }) hle hd, rfl, hrun,
      fun h => absurd h (decodeError_code_ne_ok e), fun _ => hdisp.trans (List.append_nil _)⟩

end Sys2Proof.Machine
end

section
/-! PROOFS. The statements of 60_exceptions.md: that no run faults or stops (R114, R116, R121), what each status
code comes from and what a failed command leaves (R108, R109), and which condition decides (R113). -/

namespace Sys2Proof.Machine

open Sys2Proof

/-! ### No run from a safe state stops (R114, R116, R121) -/

/-- Settles O51, by induction on the number of steps: the invariant has the cursor within the buffer, so the
first step completes, and it keeps the invariant. -/
theorem everyRunIsSafe : Obligations.EveryRunIsSafe := by
  intro k
  induction k with
  | zero => exact fun s hs => ⟨s, rfl, hs⟩
  | succ k ih =>
    intro s hs
    obtain ⟨u, hu⟩ := step_completes hs.cursor_le
    obtain ⟨t, hrun, ht⟩ := ih u (stepKeepsInvariant s u hs hu)
    exact ⟨t, (run_succ_of_next hu).trans hrun, ht⟩

/-- Settles O8: with nothing to take, a step is idle. -/
theorem idleStepKeepsEverything : Obligations.IdleStepKeepsEverything := fun _ => step_idle

/-! ### The one fault (R116, log entry 5) -/

section
variable {s : State} {b : Byte} {i : Instr}

/-- The frame to read ends outside the buffer. -/
theorem acceptMarker_of_outside (ho : s.rxOverflowed = false) (hc : s.cfg.rxCapacity < s.rxCursor) :
    acceptMarker s = .error .bufferIndexOutOfRange := by
  simp [acceptMarker, ho, Nat.ne_zero_of_lt hc, State.memRead, hc.not_ge]

/-- The index to write is outside the buffer. -/
theorem acceptPayload_of_outside (ho : s.rxOverflowed = false) (hc : s.cfg.rxCapacity < s.rxCursor) :
    acceptPayload b s = .error .bufferIndexOutOfRange := by
  simp [acceptPayload, ho, hc.ne', State.memWrite, hc.not_gt]

theorem exec_accept_of_outside (ho : s.rxOverflowed = false) (hc : s.cfg.rxCapacity < s.rxCursor) :
    exec (.accept b) s = .fault .bufferIndexOutOfRange := by
  simp [exec, execAccept, acceptMarker_of_outside ho hc, acceptPayload_of_outside ho hc]

/-- While overflowed ACCEPT does not touch the buffer, so it completes wherever the cursor is. -/
theorem exec_accept_completes_of_overflowed (ho : s.rxOverflowed = true) :
    ∃ t, exec (.accept b) s = .next t := by
  by_cases hb : b = s.marker
  · exact ⟨_, hb ▸ exec_accept_marker (acceptMarker_of_overflowed ho)⟩
  · exact ⟨_, exec_accept_payload hb (acceptPayload_of_overflowed ho)⟩

/-- Only ACCEPT reads the cursor to reach the buffer. -/
theorem exec_completes_of_not_accept (hi : ¬ ∃ b, i = .accept b) (s : State) :
    ∃ t, exec i s = .next t := by
  cases i with
  | accept b => exact absurd ⟨b, rfl⟩ hi
  | reset => exact ⟨_, rfl⟩
  | send | encode | decode => exact ⟨_, exec_answering_eq (by simp) s⟩

theorem exec_completes_of_not_outside
    (h : ¬((∃ b, i = .accept b) ∧ s.rxOverflowed = false ∧ s.cfg.rxCapacity < s.rxCursor)) :
    ∃ t, exec i s = .next t := by
  by_cases hc : s.rxCursor ≤ s.cfg.rxCapacity
  · exact exec_completes i hc
  by_cases hi : ∃ b, i = .accept b
  · have ho : s.rxOverflowed = true := Bool.of_not_eq_false fun ho => h ⟨hi, ho, not_le.mp hc⟩
    obtain ⟨b, rfl⟩ := hi
    exact exec_accept_completes_of_overflowed ho
  · exact exec_completes_of_not_accept hi s

end

/-- Settles O33: ACCEPT outside the buffer faults, and every other case completes, so it does not fault. -/
theorem onlyAcceptOutsideBufferFaults : Obligations.OnlyAcceptOutsideBufferFaults := by
  refine fun i s => ⟨⟨fun hf => ?_, ?_⟩, exec_completes_of_not_outside⟩
  · by_contra hn
    obtain ⟨t, ht⟩ := exec_completes_of_not_outside hn
    cases hf.symm.trans ht
  · rintro ⟨⟨b, rfl⟩, ho, hc⟩
    exact exec_accept_of_outside ho hc

/-! ### The status of one command (R108) -/

/-- The table of R108 without `OK`: which word, with which sequence on `din`, raises which status. -/
inductive Raises (s : State) : Except Illegal Instr → Status → Prop
  | send (hl : s.cfg.maxPacketSize < s.din.length) : Raises s (.ok .send) .packetTooLarge
  | encode (hl : s.cfg.maxPacketSize < s.din.length) : Raises s (.ok .encode) .packetTooLarge
  | decodeTooLarge (hl : s.cfg.rxCapacity < s.din.length) : Raises s (.ok .decode) .frameTooLarge
  | decodeError (e : DecodeError) (hl : s.din.length ≤ s.cfg.rxCapacity)
      (he : s.codecDecode s.din = .error e) : Raises s (.ok .decode) e.status
  | illegal (e : Illegal) : Raises s (.error e) .illegalCommand

section
variable {s t : State} {i : Instr} {r : Response} {c : Command} {rest : List Command}

/-- A command answers OK, or does nothing but raise a status of its own. -/
theorem exec_ok_or_raises (h : exec i s = .next t) :
    (∃ r : Response, r.status = 0x00 ∧ t.responses = s.responses ++ [r]) ∨
      ∃ e, Raises s (.ok i) e ∧ t = s.raiseStatus e := by
  cases i with
  | accept b =>
    obtain ⟨-, -, -, -, ⟨r, hr, h0, -⟩, -⟩ := acceptFrame s t b h
    exact .inl ⟨r, h0, hr⟩
  | send =>
    obtain ⟨hl, rfl⟩ | ⟨-, rfl⟩ := execSend_cases h
    · exact .inr ⟨_, .send hl, rfl⟩
    · exact .inl ⟨_, rfl, rfl⟩
  | reset =>
    cases h
    exact .inl ⟨_, rfl, rfl⟩
  | encode =>
    obtain ⟨hl, rfl⟩ | ⟨-, rfl⟩ := execEncode_cases h
    · exact .inr ⟨_, .encode hl, rfl⟩
    · exact .inl ⟨_, rfl, rfl⟩
  | decode =>
    obtain ⟨hl, rfl⟩ | ⟨hl, e, he, rfl⟩ | ⟨-, p, -, rfl⟩ := execDecode_cases h
    · exact .inr ⟨_, .decodeTooLarge hl, rfl⟩
    · exact .inr ⟨_, .decodeError e hl he, rfl⟩
    · exact .inl ⟨_, rfl, rfl⟩

/-- What is added at the end of a list of responses is determined. -/
theorem response_unique {r' : Response} (h : t.responses = s.responses ++ [r])
    (h' : t.responses = s.responses ++ [r']) : r = r' :=
  List.singleton_inj.mp (List.append_cancel_left (h.symm.trans h'))

/-- The response of a step is OK to a command, or the step only takes the transaction and raises a status. -/
theorem step_ok_or_raises (hp : s.pending = c :: rest) (h : step s = .next t)
    (hr : t.responses = s.responses ++ [r]) :
    ((∃ i, decode c.cmd = .ok i) ∧ r.status = 0x00) ∨
      ∃ e, Raises { s with cmd := c.cmd, din := c.din, pending := rest } (decode c.cmd) e ∧
        r = { status := e.code } ∧
        t = ({ s with cmd := c.cmd, din := c.din, pending := rest } : State).raiseStatus e := by
  cases hd : decode c.cmd with
  | ok i =>
    rw [step_of_decode_ok hp hd] at h
    obtain ⟨r', h0, hr'⟩ | ⟨e, he, rfl⟩ := exec_ok_or_raises h
    · cases response_unique hr hr'
      exact .inl ⟨⟨i, rfl⟩, h0⟩
    · exact .inr ⟨e, he, response_unique hr rfl, rfl⟩
  | error e =>
    rw [step_of_decode_error hp hd] at h
    cases h
    exact .inr ⟨_, .illegal e, response_unique hr rfl, rfl⟩

end

/-- Settles O46: a step that raises a status does nothing else. -/
theorem failedCommandOnlyAnswers : Obligations.FailedCommandOnlyAnswers := by
  intro s t c rest r hp h hr hne
  obtain ⟨-, h0⟩ | ⟨e, -, rfl, rfl⟩ := step_ok_or_raises hp h hr
  · exact absurd h0 hne
  · exact ⟨rfl, rfl, rfl, rfl⟩

/-! ### Which codec gives which decode error (R107) -/

theorem cobsDecode_ne_invalidEscape (f : List Byte) : cobsDecode f ≠ .error .invalidEscape := by
  induction f using cobsFrame_induction with
  | nil => simp
  | zero f => simp
  | truncated n f hn hlen => simp [cobsDecode_truncated hn hlen]
  | block n d f hn hd ih =>
    rw [cobsDecode_block hn hd]
    cases h : cobsDecode f with
    | ok p => simp [Except.map]
    | error e => simpa [Except.map, h] using ih

theorem slipUnescape_error {c : Byte} {e : DecodeError} (h : slipUnescape c = .error e) :
    e = .invalidEscape := by
  unfold slipUnescape at h
  split_ifs at h
  exact (Except.error.inj h).symm

/-- Putting a byte in front of what decodes makes no error. -/
theorem error_of_map_cons_eq_error {x : Except DecodeError (List Byte)} {b : Byte} {e : DecodeError}
    (h : x.map (b :: ·) = .error e) : x = .error e := by
  cases x with
  | ok p => cases h
  | error e' => exact h

theorem slipDecode_ne_invalidLengthByte (f : List Byte) :
    slipDecode f ≠ .error .invalidLengthByte := by
  induction f using slipFrame_induction with
  | nil => simp
  | dangling => simp
  | invalid c f e hc => simp [slipDecode_invalid hc, slipUnescape_error hc]
  | pair c d f hc ih => exact slipDecode_pair hc ▸ mt error_of_map_cons_eq_error ih
  | plain b f hb ih => exact slipDecode_plain b f hb ▸ mt error_of_map_cons_eq_error ih

section
variable {c : Codec} {f : List Byte}

/-- A COBS length byte is what `invalidLengthByte` is about. -/
theorem codec_of_invalidLengthByte (h : c.decodeFrame f = .error .invalidLengthByte) : c = .cobs := by
  cases c with
  | cobs => rfl
  | slip => exact absurd h (slipDecode_ne_invalidLengthByte f)

/-- A SLIP escape pair is what `invalidEscape` is about. -/
theorem codec_of_invalidEscape (h : c.decodeFrame f = .error .invalidEscape) : c = .slip := by
  cases c with
  | cobs => exact absurd h (cobsDecode_ne_invalidEscape f)
  | slip => rfl

end

/-- Settles O47, one row of R108's table at a time. -/
theorem statusCodesComeFromTheirCommands : Obligations.StatusCodesComeFromTheirCommands := by
  intro s t c rest r hp h hr
  obtain ⟨⟨i, hd⟩, h0⟩ | ⟨e, he, rfl, -⟩ := step_ok_or_raises hp h hr
  · simp [hd, h0]
  · generalize decode c.cmd = d at he ⊢
    cases he with
    | send | encode | decodeTooLarge | illegal => simp [Status.code]
    | decodeError e hl he =>
      cases e with
      | invalidLengthByte =>
        have hc : s.cfg.codec = .cobs := codec_of_invalidLengthByte he
        simp [DecodeError.status, Status.code, hc]
      | truncated => simp [DecodeError.status, Status.code]
      | invalidEscape =>
        have hc : s.cfg.codec = .slip := codec_of_invalidEscape he
        simp [DecodeError.status, Status.code, hc]

/-! ### Which condition decides (R113) -/

section
variable {s t u : State} {r r' : Response}

/-- The end of a step and its response are those of the case known to hold. -/
theorem step_response_unique (h : step s = .next t) (hr : t.responses = s.responses ++ [r])
    (hu : step s = .next u) (hr' : u.responses = s.responses ++ [r']) : t = u ∧ r = r' := by
  cases h.symm.trans hu
  exact ⟨rfl, response_unique hr hr'⟩

/-- In a case known to raise a status, the response has its code. -/
theorem status_of_step_raiseStatus {e : Status} (h : step s = .next t)
    (hr : t.responses = s.responses ++ [r]) (hu : step s = .next (u.raiseStatus e))
    (hs : u.responses = s.responses) : r.status = e.code :=
  congrArg Response.status (step_response_unique h hr hu (congrArg (· ++ [_]) hs)).2

end

/-- Settles O48: the step completes and gives one response, and each clause is one case of its command. -/
theorem priorityWithinOneCommand : Obligations.PriorityWithinOneCommand := by
  intro s c rest hp hs
  obtain ⟨t, h⟩ := step_completes hs
  obtain ⟨-, -, -, hr⟩ := step_answersAs hp h
  refine ⟨t, _, h, hr, ?illegal, ?packetTooLarge, ?frameTooLarge, ?decodeError, ?marker, ?payload⟩
  case illegal =>
    rintro ⟨e, hd⟩
    exact status_of_step_raiseStatus h hr (step_of_decode_error hp hd) rfl
  case packetTooLarge =>
    rintro (hd | hd) hl
    · exact status_of_step_raiseStatus h hr
        ((step_of_decode_ok hp hd).trans (exec_send_of_lt hl)) rfl
    · exact status_of_step_raiseStatus h hr
        ((step_of_decode_ok hp hd).trans (exec_encode_of_lt hl)) rfl
  case frameTooLarge =>
    intro hd hl
    exact status_of_step_raiseStatus h hr
      ((step_of_decode_ok hp hd).trans (exec_decode_of_lt hl)) rfl
  case decodeError =>
    intro e hd hl he
    exact status_of_step_raiseStatus h hr
      ((step_of_decode_ok hp hd).trans (exec_decode_of_error hl he)) rfl
  case marker =>
    intro hd ho
    have hx := (step_of_decode_ok hp hd).trans (exec_accept_marker
      (s := { s with cmd := c.cmd, din := c.din, pending := rest }) (acceptMarker_of_overflowed ho))
    obtain ⟨rfl, hplain⟩ := step_response_unique h hr hx rfl
    exact ⟨⟨rfl, rfl⟩, hplain⟩
  case payload =>
    intro b hd hb ho
    have hx := (step_of_decode_ok hp hd).trans
      (exec_accept_payload hb (acceptPayload_of_overflowed ho))
    obtain ⟨rfl, hplain⟩ := step_response_unique h hr hx rfl
    exact ⟨ho, hplain⟩

end Sys2Proof.Machine
end

section
/-! PROOFS. The statements of 70_reset_and_hazards.md: the state after a reset (R122, R123), and that a receiver
joined in the middle of a stream is in step from the first marker on (R126). -/

namespace Sys2Proof.Machine

open Sys2Proof

/-! ### Reset (R122, R123) -/

/-- At a boundary the view does not depend on what the buffer holds. -/
theorem abs_of_atBoundary {s : State} (hs : s.atBoundary) :
    s.abs = { frame := [], overflowed := false } := by
  rw [State.abs, rxFrame_of_atBoundary hs, hs.2]

/-- Settles O36: power-on and RESET both leave a boundary, and all boundaries have one view. -/
theorem resetStateIsAtBoundary : Obligations.ResetStateIsAtBoundary := by
  refine ⟨fun c => ⟨rfl, rfl, rfl, fun i => rfl⟩, fun s t h => ?_⟩
  cases (resetClearsReceiver s).symm.trans h
  exact ⟨rfl, rfl, (abs_of_atBoundary ⟨rfl, rfl⟩).trans (abs_of_atBoundary ⟨rfl, rfl⟩).symm⟩

/-- After power-on nothing is held, nothing is written and nothing was answered, so only the parameters can
break the invariant. -/
theorem resetWith_inv {c : Config} (hc : c.wf = true) : (State.resetWith c).Inv where
  cfg_wf := hc
  cursor_le := Nat.zero_le _
  cursor_of_overflowed _ := rfl
  buf_wf := resetWith_buf_wf c
  buf_within := List.forall_mem_nil _
  frame_written _ hi := absurd hi (Nat.not_lt_zero _)
  frame_marker_free _ hi := absurd hi (Nat.not_lt_zero _)
  status_legal := List.forall_mem_nil _

/-- Settles O49: the parameters of `State.reset` are legal. -/
theorem invariantHoldsAtReset : Obligations.InvariantHoldsAtReset :=
  ⟨fun _ => resetWith_inv, resetWith_inv (by decide)⟩

/-! ### A feed that ends in a marker (R126) -/

/-- The marker clears the view whatever came before it, other markers included. -/
theorem absRun_feed_marker_view (c : Config) (a : AbsReceiver) (bs : List Byte) :
    (absRun c a (feed (bs ++ [c.codec.marker]))).1 = { frame := [], overflowed := false } := by
  induction bs generalizing a with
  | nil =>
    rw [List.nil_append, feed_cons, absRun_cons, absCommand_accept, absAccept, if_pos rfl]
    rfl
  | cons b bs ih =>
    rw [List.cons_append, feed_cons, absRun_cons]
    exact ih _

/-- After any bytes and a marker the block is at a boundary, for its cursor is the length of its view's
frame. -/
theorem feed_marker_reaches_boundary {s : State} {bs : List Byte} {rest : List Command}
    (hs : s.rxCursor ≤ s.cfg.rxCapacity) (hp : s.pending = feed (bs ++ [s.marker]) ++ rest) :
    ∃ t, run (bs.length + 1) s = .next t ∧ t.pending = rest ∧ t.cfg = s.cfg ∧ t.atBoundary := by
  obtain ⟨t, hrun, hrest, hcfg, hview, hcur, -, -⟩ := abstractViewSimulates s _ rest hp hs
  rw [State.marker, absRun_feed_marker_view] at hview
  rw [hview] at hcur
  exact ⟨t, by simpa using hrun, hrest, hcfg, hcur, congrArg AbsReceiver.overflowed hview⟩

/-! ### The whole frames after it -/

/-- The wire frames of some packets, one after the other (42_receiver.md R94). -/
def State.wireFrames (s : State) (ps : List (List Byte)) : List Byte :=
  ps.flatMap fun p => s.codecEncode p ++ [s.marker]

theorem wireFrames_cons (s : State) (p : List Byte) (ps : List (List Byte)) :
    s.wireFrames (p :: ps) = (s.codecEncode p ++ [s.marker]) ++ s.wireFrames ps :=
  List.flatMap_cons

/-- Of the state only the parameters matter. -/
theorem wireFrames_of_cfg_eq {s t : State} (h : t.cfg = s.cfg) (ps : List (List Byte)) :
    t.wireFrames ps = s.wireFrames ps := by
  simp only [State.wireFrames, State.codecEncode, State.marker, h]

/-- From a boundary one whole frame that fits dispatches its packet, and leaves a boundary and the same
parameters for the next one. -/
theorem feed_codecEncode_dispatches {s : State} {p : List Byte} {rest : List Command}
    (hs : s.atBoundary) (hp : p ≠ []) (hle : (s.codecEncode p).length ≤ s.cfg.rxCapacity)
    (hpend : s.pending = feed (s.codecEncode p ++ [s.marker]) ++ rest) :
    ∃ t, run (s.codecEncode p ++ [s.marker]).length s = .next t ∧ t.pending = rest ∧ t.cfg = s.cfg ∧
      t.atBoundary ∧ t.dispatched = s.dispatched ++ [p] := by
  obtain ⟨t, hrun, hrest, hcfg, hbd, hresp⟩ := feedOfOneFrame s (s.codecEncode p) rest
    (hs.1.trans_le (Nat.zero_le _)) (marker_notMem_encodePacket _ p) hpend
  rw [feedResult_codecEncode hs hp hle] at hresp
  exact ⟨t, by rwa [List.length_append], hrest, hcfg, hbd, dispatched_of_feed hresp⟩

/-- From a boundary the wire frames of packets that fit dispatch those packets, by induction on the packets:
each frame leaves a boundary for the next. -/
theorem feed_wireFrames_dispatches (ps : List (List Byte)) {s : State} {rest : List Command}
    (hs : s.atBoundary) (hps : ∀ p ∈ ps, p ≠ [] ∧ (s.codecEncode p).length ≤ s.cfg.rxCapacity)
    (hpend : s.pending = feed (s.wireFrames ps) ++ rest) :
    ∃ t, run (s.wireFrames ps).length s = .next t ∧ t.atBoundary ∧ t.pending = rest ∧
      t.dispatched = s.dispatched ++ ps := by
  induction ps generalizing s with
  | nil => exact ⟨s, rfl, hs, hpend, (List.append_nil _).symm⟩
  | cons p ps ih =>
    obtain ⟨⟨hp, hle⟩, hps⟩ := List.forall_mem_cons.mp hps
    rw [wireFrames_cons, feed_append, List.append_assoc] at hpend
    obtain ⟨u, hrun, hrest, hcfg, hbu, hdisp⟩ := feed_codecEncode_dispatches hs hp hle hpend
    have hframes := wireFrames_of_cfg_eq hcfg ps
    simp only [State.codecEncode, ← hcfg] at hps
    rw [← hframes] at hrest
    obtain ⟨t, hrun', hbt, hrest', hdisp'⟩ := ih hbu hps hrest
    refine ⟨t, ?_, hbt, hrest', ?_⟩
    · rw [wireFrames_cons, List.length_append, run_add _ hrun, ← hframes, hrun']
    · rw [hdisp', hdisp, List.append_assoc, List.singleton_append]

/-- Settles O58: the first marker leaves a boundary, from which every whole frame is dispatched. -/
theorem resynchronisesAtFirstMarker : Obligations.ResynchronisesAtFirstMarker := by
  intro s bs ps rest hs hps hpend
  obtain ⟨t, hrun, hrest, hcfg, hbt⟩ := feed_marker_reaches_boundary hs hpend
  have hframes : t.wireFrames ps = _ := wireFrames_of_cfg_eq hcfg ps
  rw [← State.wireFrames, ← hframes] at hrest ⊢
  simp only [State.codecEncode, ← hcfg] at hps
  obtain ⟨u, hrun', hbu, hrest', hdisp⟩ := feed_wireFrames_dispatches ps hbt hps hrest
  exact ⟨t, u, hrun, hbt, hrun', hbu, hrest', hdisp⟩

end Sys2Proof.Machine
end
